-- ==== Sys2Proof/Word.lean ====
section
/-! DEFINITION. The two widths of the block: a byte of a frame and a 16-bit value (`u8`, `u16`;
00_scope.md R7). -/

namespace Sys2Proof

/-- A byte of a frame (R7: "a byte is 8 bits"). -/
abbrev Byte := BitVec 8

/-- A `u16`: a holding register, or a 16-bit field of a frame (R7, R20). -/
abbrev Word := BitVec 16

end Sys2Proof
end

