-- ==== Sys2Proof/Syntax.lean ====
section
/-! DEFINITION. An instruction of the block is one request frame (30_encoding.md), with the fields the
parser decodes pulled out. One constructor per row of opcode_table.json. A row covers every frame that
selects it (R96: "the length checks of rule R94 come after"), so each operation's PDU also has a form
for bytes that do not have the operation's size. -/

namespace Sys2Proof

/-- The MBAP fields of an accepted request (R81). The protocol id is not among them: an accepted frame
has `pid = 0` (R115). `mlen` is the declared length, kept as received. -/
structure Header where
  tid : Word
  mlen : Word
  uid : Byte
deriving DecidableEq, Repr

/-- What follows the function code of an `RHR` frame (R84). -/
inductive ReadPdu where
  /-- `{startAddr:u16, count:u16}`, the four bytes of `REQ_RD`. -/
  | fields (startAddr count : Word)
  /-- Any other number of bytes: L is not 12. -/
  | badSize (rest : List Byte)
deriving DecidableEq, Repr

/-- What follows the function code of a `WSR` frame (R85). -/
inductive WriteSinglePdu where
  /-- `{startAddr:u16, value:u16}`, the four bytes of `REQ_WS`. -/
  | fields (startAddr value : Word)
  /-- Any other number of bytes: L is not 12. -/
  | badSize (rest : List Byte)
deriving DecidableEq, Repr

/-- What follows the function code of a `WMR` frame (R86). -/
inductive WriteMultiplePdu where
  /-- `{startAddr:u16, count:u16, byteCount:u8, data}`: `data` is whatever bytes follow index 12. -/
  | fields (startAddr count : Word) (byteCount : Byte) (data : List Byte)
  /-- Fewer than five bytes: L is below 13. -/
  | short (rest : List Byte)
deriving DecidableEq, Repr

/-- One request frame of at least 8 bytes with protocol id 0 (R91, R96). -/
inductive Instr where
  /-- Read holding registers, function code 3 (R130). -/
  | rhr (h : Header) (p : ReadPdu)
  /-- Write single register, function code 6 (R140). -/
  | wsr (h : Header) (p : WriteSinglePdu)
  /-- Write multiple registers, function code 16 (R141). -/
  | wmr (h : Header) (p : WriteMultiplePdu)
  /-- Every other function code (R160); `rest` is never interpreted. -/
  | illegal (h : Header) (fc : Byte) (rest : List Byte)
deriving DecidableEq, Repr

/-- Number of bytes after the function code of an `RHR` frame. -/
def ReadPdu.size : ReadPdu → Nat
  | .fields _ _ => 4
  | .badSize rest => rest.length

/-- Number of bytes after the function code of a `WSR` frame. -/
def WriteSinglePdu.size : WriteSinglePdu → Nat
  | .fields _ _ => 4
  | .badSize rest => rest.length

/-- Number of bytes after the function code of a `WMR` frame. -/
def WriteMultiplePdu.size : WriteMultiplePdu → Nat
  | .fields _ _ _ data => 5 + data.length
  | .short rest => rest.length

/-- `L`, the number of bytes of the frame: header (7), function code (1) and the rest (R81, R82). -/
def Instr.size : Instr → Nat
  | .rhr _ p => 8 + p.size
  | .wsr _ p => 8 + p.size
  | .wmr _ p => 8 + p.size
  | .illegal _ _ rest => 8 + rest.length

/-- The MBAP fields of the frame. -/
def Instr.header : Instr → Header
  | .rhr h _ => h
  | .wsr h _ => h
  | .wmr h _ => h
  | .illegal h _ _ => h

end Sys2Proof
end

