-- ==== Sys2Proof/WellFormed.lean ====
section
/-! DEFINITION. Which terms of `Instr` are frames: the bytes kept in a malformed form must really not
have the operation's size, and `illegal` must not carry a supported function code (R84, R85, R86, R91).
A malformed frame IS well-formed syntax: it has a meaning (exception 3). -/

namespace Sys2Proof

/-- R84: exactly four bytes after the function code are `{startAddr, count}`. -/
def ReadPdu.wellFormed : ReadPdu → Bool
  | .fields _ _ => true
  | .badSize rest => rest.length != 4

/-- R85: exactly four bytes after the function code are `{startAddr, value}`. -/
def WriteSinglePdu.wellFormed : WriteSinglePdu → Bool
  | .fields _ _ => true
  | .badSize rest => rest.length != 4

/-- R86: five bytes or more after the function code hold `{startAddr, count, byteCount}`. -/
def WriteMultiplePdu.wellFormed : WriteMultiplePdu → Bool
  | .fields _ _ _ _ => true
  | .short rest => decide (rest.length < 5)

/-- The term is the decoding of some frame. -/
def Instr.wellFormed : Instr → Bool
  | .rhr _ p => p.wellFormed
  | .wsr _ p => p.wellFormed
  | .wmr _ p => p.wellFormed
  | .illegal _ fc _ => fc != 0x03 && fc != 0x06 && fc != 0x10

end Sys2Proof
end

