-- ==== Sys2Proof/Decode.lean ====
section
/-! DEFINITION. From the bytes of a receive result to an instruction or a named rejection
(40_frame_parser.md R112 to R116), and back: the encoder of requests (30_encoding.md R81 to R86). Also
the words of opcode_table.json (R96) and the spec's textual requests (R97, R98). -/

namespace Sys2Proof

/-! ## Fields -/

/-- `hi ++ lo`: a `u16` field, most significant byte first (R8, R50, R83). -/
def be16 (hi lo : Byte) : Word := hi ++ lo

/-- `bytes16(v) = [v[15:8], v[7:0]]` (R8). -/
def bytes16 (v : Word) : List Byte := [v.extractLsb' 8 8, v.extractLsb' 0 8]

/-- Function code 3, read holding registers (R91). -/
abbrev fcRead : Byte := 0x03
/-- Function code 6, write single register (R91). -/
abbrev fcWriteSingle : Byte := 0x06
/-- Function code 16, write multiple registers (R91, 90 C2). -/
abbrev fcWriteMultiple : Byte := 0x10
/-- The protocol id of a Modbus frame (R81). -/
def protocolId : Word := 0

/-! ## Decoder -/

/-- Why a receive result holds no instruction (30 R93). -/
inductive Reject where
  /-- No bytes: nothing was received (R112). -/
  | empty
  /-- 1 to 7 bytes: no room for header and function code (R113). -/
  | runt
  /-- Eight bytes or more, protocol id not 0 (R115). -/
  | badProtocol
deriving DecidableEq, Repr

/-- What the parser makes of a receive result. -/
inductive Decoded where
  | instr (i : Instr)
  | rejected (r : Reject)
deriving DecidableEq, Repr

/-- The bytes after the function code of an `RHR` frame (R84). -/
def decodeRead : List Byte → ReadPdu
  | [a, b, c, d] => .fields (be16 a b) (be16 c d)
  | rest => .badSize rest

/-- The bytes after the function code of a `WSR` frame (R85). -/
def decodeWriteSingle : List Byte → WriteSinglePdu
  | [a, b, c, d] => .fields (be16 a b) (be16 c d)
  | rest => .badSize rest

/-- The bytes after the function code of a `WMR` frame (R86). -/
def decodeWriteMultiple : List Byte → WriteMultiplePdu
  | a :: b :: c :: d :: n :: data => .fields (be16 a b) (be16 c d) n data
  | rest => .short rest

/-- Dispatch by function code: `b[7]` alone selects the operation (R91, R116). -/
def decodeFunction (h : Header) (fc : Byte) (rest : List Byte) : Instr :=
  if fc = fcRead then .rhr h (decodeRead rest)
  else if fc = fcWriteSingle then .wsr h (decodeWriteSingle rest)
  else if fc = fcWriteMultiple then .wmr h (decodeWriteMultiple rest)
  else .illegal h fc rest

/-- R112 to R116 in their order: nothing received, runt, header fields, protocol id, function code.
Total on any bytes. -/
def decode : List Byte → Decoded
  | [] => .rejected .empty
  | t0 :: t1 :: p0 :: p1 :: l0 :: l1 :: u :: fc :: rest =>
    if be16 p0 p1 = protocolId then .instr (decodeFunction ⟨be16 t0 t1, be16 l0 l1, u⟩ fc rest)
    else .rejected .badProtocol
  | _ => .rejected .runt

/-! ## Encoder of requests -/

/-- The 7-byte MBAP header of a request (R81). -/
def encodeHeader (h : Header) : List Byte :=
  bytes16 h.tid ++ bytes16 protocolId ++ bytes16 h.mlen ++ [h.uid]

/-- The bytes of a request frame (R84, R85, R86). -/
def encode : Instr → List Byte
  | .rhr h (.fields a n) => encodeHeader h ++ [fcRead] ++ bytes16 a ++ bytes16 n
  | .rhr h (.badSize rest) => encodeHeader h ++ [fcRead] ++ rest
  | .wsr h (.fields a v) => encodeHeader h ++ [fcWriteSingle] ++ bytes16 a ++ bytes16 v
  | .wsr h (.badSize rest) => encodeHeader h ++ [fcWriteSingle] ++ rest
  | .wmr h (.fields a n k data) =>
    encodeHeader h ++ [fcWriteMultiple] ++ bytes16 a ++ bytes16 n ++ [k] ++ data
  | .wmr h (.short rest) => encodeHeader h ++ [fcWriteMultiple] ++ rest
  | .illegal h fc rest => encodeHeader h ++ [fc] ++ rest

/-! ## The words of the opcode table -/

/-- The eight bytes of `W = b[0] ++ … ++ b[7]`, with `b[7]` in bits 7:0 (R96). -/
def matchWordBytes (w : Nat) : List Byte :=
  [BitVec.ofNat 8 (w >>> 56), BitVec.ofNat 8 (w >>> 48), BitVec.ofNat 8 (w >>> 40),
   BitVec.ofNat 8 (w >>> 32), BitVec.ofNat 8 (w >>> 24), BitVec.ofNat 8 (w >>> 16),
   BitVec.ofNat 8 (w >>> 8), BitVec.ofNat 8 w]

/-- The bytes after `W` that a table word of more than 64 bits gives: byte `8 + k` is bits
`71 + 8k : 64 + 8k`. -/
def tailBytes (nbits w : Nat) : List Byte :=
  (List.range ((nbits - 64 + 7) / 8)).map fun k => BitVec.ofNat 8 (w >>> (64 + 8 * k))

/-- Bytes the operation's shortest well-sized frame has after the function code (R84 to R86, R91). -/
def operandBytes (fc : Byte) : Nat :=
  if fc = fcRead ∨ fc = fcWriteSingle then 4 else if fc = fcWriteMultiple then 5 else 0

/-- The frame a table word stands for: `W`, the bytes above it, and zeros up to the shortest frame of
the operation. DESIGN CHOICE, safe, log 12. -/
def tableFrame (nbits w : Nat) : List Byte :=
  let tail := tailBytes nbits w
  matchWordBytes w ++ tail ++ List.replicate (operandBytes (BitVec.ofNat 8 w) - tail.length) 0

/-- The instruction the decoder reads from a table word. -/
def decodeTableWord (nbits w : Nat) : Option Instr :=
  match decode (tableFrame nbits w) with
  | .instr i => some i
  | .rejected _ => none

/-! ## The spec's textual requests -/

/-- `RHR tid, uid, start, count` (R97). -/
def requestRhr (tid : Word) (uid : Byte) (start count : Word) : Instr :=
  .rhr ⟨tid, 6, uid⟩ (.fields start count)

/-- `WSR tid, uid, addr, value` (R97). -/
def requestWsr (tid : Word) (uid : Byte) (addr value : Word) : Instr :=
  .wsr ⟨tid, 6, uid⟩ (.fields addr value)

/-- `WMR tid, uid, start, [v0, …]` with count `c = vs.length` and byte count `2c` (R97). -/
def requestWmr (tid : Word) (uid : Byte) (start : Word) (vs : List Word) : Instr :=
  .wmr ⟨tid, BitVec.ofNat 16 (7 + 2 * vs.length), uid⟩
    (.fields start (BitVec.ofNat 16 vs.length) (BitVec.ofNat 8 (2 * vs.length)) (vs.flatMap bytes16))

/-- External address of offset `i`: `40001 + i` (R22). Never on the wire. -/
def externalAddress (i : Nat) : Nat := 40001 + i

/-- The offset an operand `@e` stands for (R98). -/
def offsetOfExternal (e : Nat) : Nat := e - 40001

/-- `LED_OFF tid, uid` (R98). -/
def requestLedOff (tid : Word) (uid : Byte) : Instr := requestWsr tid uid 0 1
/-- `LED_ON tid, uid` (R98). -/
def requestLedOn (tid : Word) (uid : Byte) : Instr := requestWsr tid uid 0 2
/-- `LED_BLINK tid, uid, ms`: two service cycles (R98). -/
def requestLedBlink (tid : Word) (uid : Byte) (ms : Word) : List Instr :=
  [requestWsr tid uid 0 3, requestWsr (tid + 1) uid 1 ms]

end Sys2Proof
end

