-- ==== Sys2Proof/Machine/Encoder.lean ====
section
/-! DEFINITION. The response encoder (44_response_encoder.md): pure functions of their arguments (R171). -/

namespace Sys2Proof.Machine

/-- The exceptions of R170. -/
inductive ModbusException where
  | illegalFunction
  | illegalDataAddress
  | illegalDataValue
deriving DecidableEq, Repr

/-- Exception codes (R170). -/
def exceptionCode : ModbusException → Byte
  | .illegalFunction => 0x01
  | .illegalDataAddress => 0x02
  | .illegalDataValue => 0x03

/-- `Header(tid, uid, pduLen)` (R165). -/
def responseHeader (tid : Word) (uid : Byte) (pduLen : Nat) : List Byte :=
  bytes16 tid ++ [0x00, 0x00] ++ bytes16 (BitVec.ofNat 16 (1 + pduLen)) ++ [uid]

/-- `EncodeReadResponse(tid, uid, r)` (R166, format R87). -/
def encodeReadResponse (tid : Word) (uid : Byte) (r : List Word) : List Byte :=
  responseHeader tid uid (2 + 2 * r.length)
    ++ [fcRead, BitVec.ofNat 8 (2 * r.length)] ++ r.flatMap bytes16

/-- `EncodeWriteSingleResponse(tid, uid, a, v)` (R167, format R88). -/
def encodeWriteSingleResponse (tid : Word) (uid : Byte) (a v : Word) : List Byte :=
  responseHeader tid uid 5 ++ [fcWriteSingle] ++ bytes16 a ++ bytes16 v

/-- `EncodeWriteMultipleResponse(tid, uid, a, c)` (R168, format R89). -/
def encodeWriteMultipleResponse (tid : Word) (uid : Byte) (a c : Word) : List Byte :=
  responseHeader tid uid 5 ++ [fcWriteMultiple] ++ bytes16 a ++ bytes16 c

/-- The function code with its high bit set (R90, 92 D18). -/
def exceptionFunction (fc : Byte) : Byte := fc ||| 0x80

/-- `EncodeException(tid, uid, fc, code)` (R169, format R90). -/
def encodeException (tid : Word) (uid : Byte) (fc : Byte) (e : ModbusException) : List Byte :=
  responseHeader tid uid 2 ++ [exceptionFunction fc, exceptionCode e]

end Sys2Proof.Machine
end

