-- ==== Sys2Proof/Machine/Flags.lean ====
section
/-! DEFINITION. The block has no flag or condition code (10_state.md R30). What it computes of one bit
are the comparisons of 00_scope.md R11: the bound check of the address decode and the size checks of a
request. -/

namespace Sys2Proof.Machine

/-- The bound check `zext_17(a) + zext_17(n) <= N` (R54): the sum has 17 bits and does not wrap. -/
def inRange (n : Nat) (a len : Word) : Bool :=
  decide ((a.setWidth 17 + len.setWidth 17).toNat ≤ n)

/-- Header length check `mlen = L - 6` (R117). -/
def lengthAgrees (mlen : Word) (size : Nat) : Bool :=
  mlen.toNat == size - 6

/-- `byteCount = 2 * count`, compared as naturals (R141, R11). -/
def byteCountAgrees (byteCount : Byte) (count : Word) : Bool :=
  byteCount.toNat == 2 * count.toNat

/-- `L = 13 + byteCount` (R141), with `L` 13 more than the number of data bytes. -/
def dataLengthAgrees (byteCount : Byte) (data : List Byte) : Bool :=
  13 + data.length == 13 + byteCount.toNat

end Sys2Proof.Machine
end

