-- ==== Sys2Proof/Machine/Operands.lean ====
section
/-! DEFINITION. Operand forms: register slices (20_memory.md R51, R55, R56) and the data words of a
multi-register write (42_write_registers.md R141). Addressing is absolute (R130, R140, R141). -/

namespace Sys2Proof.Machine

/-- The values `x[a], …, x[a+n-1]` (R51, R55). -/
def readSlice (regs : List Word) (a n : Nat) : List Word :=
  (regs.drop a).take n

/-- `x[a+i] <- vs[i]` for every `i` below `vs.length`; every other register keeps its value (R56). -/
def writeSlice : List Word → Nat → List Word → List Word
  | [], _, _ => []
  | regs, _, [] => regs
  | _ :: regs, 0, v :: vs => v :: writeSlice regs 0 vs
  | x :: regs, a + 1, vs => x :: writeSlice regs a vs

/-- `data[i] = be16(b, 13 + 2*i)`: the data bytes taken two at a time (R141). -/
def dataWords : List Byte → List Word
  | hi :: lo :: rest => be16 hi lo :: dataWords rest
  | _ => []

end Sys2Proof.Machine
end

