-- ==== Sys2Proof/Config.lean ====
section
/-! DEFINITION. What one implementation fixes (00_scope.md R4) and the one free value of the model
(92_eei_decisions.md D17). -/

namespace Sys2Proof

/-- The parameters of R4, chosen before reset and constant after it (R13). The block reads `n` and
`rxMax`; reset reads the `reset…` values; the last five belong to agents outside the block. -/
structure Params where
  /-- `N`, the number of holding registers. -/
  n : Nat
  /-- `RX_MAX`, the size in bytes of the bounded receive buffer. -/
  rxMax : Nat
  /-- `RESET_LED_MODE`, the reset value of register 0. -/
  resetLedMode : Word
  /-- `RESET_BLINK_MS`, the reset value of register 1. -/
  resetBlinkMs : Word
  /-- `RESET_LED_STATE`, the reset value of register 2. -/
  resetLedState : Word
  /-- `RESET_COUNTER`, the reset value of register 3. -/
  resetCounter : Word
  /-- `RESET_SPARE`, the reset value of registers 4 to N-1. -/
  resetSpare : Word
  /-- `TCP_PORT`: outside the block, listed for completeness (R4); nothing reads it. -/
  tcpPort : Word
  /-- `LED_MIRROR_ALWAYS` of the LED agent (92 D22, 90 C1). -/
  ledMirrorAlways : Bool
  /-- Whether an interval of 0 makes the LED agent toggle on a tick before a deadline that is still
  ahead. The spec gives both readings: "toggle every tick" (R25, R192, 93 U7), and the deadline test
  (R192) with "the next scheduled transition boundary" (R216). DESIGN CHOICE to make it a parameter:
  safe, see log 19. -/
  blinkZeroAtOnce : Bool
  /-- Whether the counter agent catches up overdue increments in one tick; the source leaves it
  open (91 N14). DESIGN CHOICE to make it a parameter: safe, see log 7. -/
  counterCatchUp : Bool
  /-- The initial `lastFire` of the counter agent, in milliseconds; not given (91 N14, log 7). -/
  lastFire0 : Nat
deriving DecidableEq, Repr

/-- The constraints of R4: `4 <= N <= 125` and `12 <= RX_MAX`. Outside them the model refuses (R13,
93 X12). -/
def Params.ok (p : Params) : Bool :=
  decide (4 ≤ p.n) && decide (p.n ≤ 125) && decide (12 ≤ p.rxMax)

/-- The "reference" column of R4. DESIGN CHOICE, unsafe where a claim leans on it: `rxMax` is OPEN
(260 is the suggestion of D5, log 2), and so are the last four (logs 6, 7 and 19). -/
def Params.reference : Params where
  n := 10
  rxMax := 260
  resetLedMode := 3
  resetBlinkMs := 250
  resetLedState := 0
  resetCounter := 0
  resetSpare := 0
  tcpPort := 502
  ledMirrorAlways := false
  blinkZeroAtOnce := false
  counterCatchUp := false
  lastFire0 := 0

/-- A FREE VALUE: whether the diagnostic event that D17 leaves OPEN is emitted at the `k`-th such
point. It has no body on purpose: nothing may be proved about its value (log 4). -/
opaque Config.freeDiag : Nat → Bool

end Sys2Proof
end

