-- ==== Sys2Proof/Machine/State.lean ====
section
/-! DEFINITION. The state of the machine as plain data (10_state.md), the environment's moves
(00_scope.md R12, R13), and reset (70_reset_and_hazards.md R210, R211). -/

namespace Sys2Proof.Machine

/-- No fault exists: "no condition in this core is fatal to the process"; the block "has no halted,
faulted or locked state" (R187), and every input has a defined outcome (R12). -/
inductive Fault
deriving DecidableEq, Repr

/-- What the model gives no meaning to. None of it is an instruction of the opcode table. -/
inductive Refusal where
  /-- An instruction whose arm has no meaning yet. Raised by no arm: every row is modelled. Safe. -/
  | notModelled (mnemonic : String)
  /-- Raised by `step`: parameters outside the constraints of R4 ("a model refuses other N", 92 D4;
  93 X12). Safe. -/
  | badParameters
  /-- Raised by `runMove`: a local write whose number of values is not its length; R9 defines
  `MemWrite(a, n, vs)` only with `len(vs) = n` (log 13). Safe. -/
  | illFormedLocalWrite
deriving DecidableEq, Repr

/-- Outcomes whose diagnostic event the spec leaves OPEN (92 D17). -/
inductive OpenOutcome where
  | illegalFunction
  | illegalDataValue
  | runtDrop
  | protocolDrop
deriving DecidableEq, Repr

/-- Events on the `DIAG` port (R35). -/
inductive DiagEvent where
  /-- A read or a write failed the bound check. -/
  | malformedRequest
  /-- `send_ok` was false. -/
  | sendFailed
  /-- An event the spec neither requires nor excludes (92 D17); emitted as the free value says. -/
  | unspecified (o : OpenOutcome)
deriving DecidableEq, Repr

/-- Result of an access on the `LOCAL` port (R34): what `MemRead` or `MemWrite` answered (R9). -/
inductive LocalResult where
  | values (vs : List Word)
  | ok
  | outOfRange
deriving DecidableEq, Repr

/-- States of the Connection Manager (R193). -/
inductive Conn where
  | disconnected
  | accepting
  | connected
deriving DecidableEq, Repr

/-- LED output level (R192). -/
inductive Level where
  | low
  | high
deriving DecidableEq, Repr

/-- One move of the environment. R12: each step of a run is a service cycle, a local access or a reset;
R13 says what the environment is free to choose in each. The last moves are the documented agents of
R190 to R193. -/
inductive Move where
  /-- `service(pending, send_ok)`, both free inputs (R110). -/
  | service (pending : List Byte) (sendOk : Bool)
  /-- `MemRead(a, n)` on the local port (R34). -/
  | localRead (a n : Word)
  /-- `MemWrite(a, n, vs)` on the local port (R34). -/
  | localWrite (a n : Word) (vs : List Word)
  /-- Reset between two steps (R13, R210). -/
  | reset
  /-- A service cycle behind the Connection Manager: what the client has buffered, and whether a send
  to it would succeed, while one is connected (R193). -/
  | session (pending : List Byte) (sendOk : Bool)
  /-- The counter agent at clock value `now`, in milliseconds (R191). -/
  | counter (now : Nat)
  /-- The LED agent at clock value `now`, in milliseconds (R192). -/
  | led (now : Nat)
  /-- One iteration of the Tick Loop: service cycle, counter, LED (R190). -/
  | tick (pending : List Byte) (sendOk : Bool) (now : Nat)
  /-- `acceptIfNeeded()`; `success` says whether a client is waiting (R193). -/
  | accept (success : Bool)
  /-- The peer closes or the connection fails; not yet detected (R193). -/
  | peerClose
deriving DecidableEq, Repr

/-- State of the documented agents outside the block (R191 to R193; R31 lists it). -/
structure Agents where
  /-- The Connection Manager's state. -/
  conn : Conn
  /-- The connected peer is gone and this has not been detected yet (log 9). -/
  peerGone : Bool
  /-- The LED output. -/
  ledOut : Level
  /-- "Next toggle deadline" of the LED agent, in milliseconds. -/
  deadline : Nat
  /-- `lastFire` of the counter agent, in milliseconds. -/
  lastFire : Nat
deriving DecidableEq, Repr

/-- The machine. The only architectural state of the block is `regs` (R20, R29 to R31); the rest is its
parameters, what crosses its ports in a step, the documented agents, and the model's own two fields. -/
structure State where
  /-- The parameters of R4; no step changes them (R13). -/
  params : Params
  /-- The register file `x[0]` to `x[N-1]` (R20). -/
  regs : List Word
  /-- The receive buffer of the current service cycle (R31, R32). -/
  rx : List Byte
  /-- The environment's answer to the send of the current service cycle (R33). -/
  sendOk : Bool
  /-- The frame handed to send in the last step, if any (R119, R120). -/
  tx : Option (List Byte)
  /-- Diagnostic events of the last step, oldest first (R35). -/
  diag : List DiagEvent
  /-- Result of the last step on the local port, if any (R34). -/
  loc : Option LocalResult
  /-- The documented agents (R190 to R193). -/
  agents : Agents
  /-- The model's own: how many free values have been drawn (log 4). -/
  diagDraws : Nat
  /-- The model's own: the environment's moves to come (log 1). -/
  script : List Move
deriving DecidableEq, Repr

/-- The outcome type of every meaning. -/
abbrev Result := Host.Outcome State Fault Refusal

/-- Reset values of the register file (R36): four named registers, then the spare ones. -/
def resetRegs (p : Params) : List Word :=
  [p.resetLedMode, p.resetBlinkMs, p.resetLedState, p.resetCounter]
    ++ List.replicate (p.n - 4) p.resetSpare

/-- Reset of the documented agents (R211). `deadline := 0`: "initialized to the past" (log 8). -/
def resetAgents (p : Params) : Agents where
  conn := .disconnected
  peerGone := false
  ledOut := .low
  deadline := 0
  lastFire := p.lastFire0

/-- The machine after a process start with parameters `p` (R210, R211, R36). The buffers have "no
defined content" (R36) and are never read before they are written (R31): DESIGN CHOICE, log 3. -/
def State.resetWith (p : Params) : State where
  params := p
  regs := resetRegs p
  rx := []
  sendOk := true
  tx := none
  diag := []
  loc := none
  agents := resetAgents p
  diagDraws := 0
  script := []

/-- The machine right after reset with the reference parameters (R4, R36). -/
def State.reset : State := State.resetWith Params.reference

end Sys2Proof.Machine
end

