-- ==== Sys2Proof/Machine/Ops.lean ====
section
/-! DEFINITION. The named operations every meaning is written over: the accessors `MemRead` and
`MemWrite`, `diag`, `respond`, `raise`, `drop` (00_scope.md R9) and the receive step. -/

namespace Sys2Proof.Machine

/-! ## The register file -/

/-- `MemRead(a, n)`: the slice, or `none` for `OutOfRange` (R55). -/
def memRead (s : State) (a n : Word) : Option (List Word) :=
  if inRange s.params.n a n then some (readSlice s.regs a.toNat n.toNat) else none

/-- `MemWrite(a, n, vs)`: the state after the write, or `none` for `OutOfRange` (R56). The bound check
is made on the whole request before any register is written. -/
def memWrite (s : State) (a n : Word) (vs : List Word) : Option State :=
  if inRange s.params.n a n then some { s with regs := writeSlice s.regs a.toNat vs } else none

/-! ## The diagnostic port -/

/-- `diag(e)` (R9, R35). -/
def emit (e : DiagEvent) (s : State) : State :=
  { s with diag := s.diag ++ [e] }

/-- A point where the emission of an event is OPEN (92 D17): the free value decides, and the next such
point draws another one (log 4). -/
def emitOpen (o : OpenOutcome) (s : State) : State :=
  { s with
    diag := if Config.freeDiag s.diagDraws then s.diag ++ [.unspecified o] else s.diag
    diagDraws := s.diagDraws + 1 }

/-! ## Send -/

/-- `respond(f)`: the frame goes to send once; a failed send is logged, not retried, and nothing is
rolled back (R119, 92 D23). -/
def respond (f : List Byte) (s : State) : State :=
  let sent := { s with tx := some f }
  if s.sendOk then sent else emit .sendFailed sent

/-! ## Taking an exception -/

/-- The diagnostic event of an exception: `MalformedRequest` for `IllegalDataAddress` only (R184 (d));
OPEN for the two others (92 D17). -/
def exceptionDiag (e : ModbusException) (s : State) : State :=
  match e with
  | .illegalDataAddress => emit .malformedRequest s
  | .illegalFunction => emitOpen .illegalFunction s
  | .illegalDataValue => emitOpen .illegalDataValue s

/-- `raise <Exception>(info)`, `info = (tid, uid, fc)` (R9, R184): no register changes, nothing is
saved, the response becomes the exception frame, and control goes to the send step. There is no return
(R186): the next service cycle starts as after any other. -/
def raise (e : ModbusException) (h : Header) (fc : Byte) (s : State) : State :=
  respond (encodeException h.tid h.uid fc e) (exceptionDiag e s)

/-! ## Receive -/

/-- Before a step the ports hold nothing of an earlier one (R31, R120: "the block never sends a frame
that is not the answer to the bytes received in the same service cycle"). -/
def openPorts (s : State) : State :=
  { s with tx := none, diag := [], loc := none }

/-- `receive(RX_MAX)`: all pending bytes, or none of them if there are more than `RX_MAX` (R32, R111).
`sendOk` is the answer the send of this cycle will get (R33). -/
def receive (pending : List Byte) (sendOk : Bool) (s : State) : State :=
  { s with
    rx := if pending.length ≤ s.params.rxMax then pending else []
    sendOk := sendOk }

/-- A receive result that holds no instruction: no response and no register change (R112, R113, R115).
R112 says there is no diagnostic event when nothing was received; for the other two it is OPEN
(92 D17). -/
def dropFrame (r : Reject) (s : State) : State :=
  match r with
  | .empty => s
  | .runt => emitOpen .runtDrop s
  | .badProtocol => emitOpen .protocolDrop s

end Sys2Proof.Machine
end

