-- ==== Sys2Proof/Machine/Agents.lean ====
section
/-! DEFINITION. The local port (10_state.md R34) and the documented environment agents
(60_exceptions.md R191 to R193), each over the same two accessors as the network path, and reset
(70_reset_and_hazards.md R210, R211). -/

namespace Sys2Proof.Machine

/-! ## The local port -/

/-- `MemRead(a, n)` from the local port (R34): no state changes but the port's result. -/
def localRead (a n : Word) (s : State) : State :=
  match memRead s a n with
  | some vs => { s with loc := some (.values vs) }
  | none => { s with loc := some .outOfRange }

/-- `MemWrite(a, n, vs)` from the local port (R34). -/
def localWrite (a n : Word) (vs : List Word) (s : State) : State :=
  match memWrite s a n vs with
  | some t => { t with loc := some .ok }
  | none => { s with loc := some .outOfRange }

/-! ## Register accesses of the agents -/

/-- Offset of `LED_MODE` (R23). -/
def ledModeOffset : Word := 0
/-- Offset of `BLINK_MS` (R23). -/
def blinkMsOffset : Word := 1
/-- Offset of `LED_STATE` (R23). -/
def ledStateOffset : Word := 2
/-- Offset of `COUNTER` (R23). -/
def counterOffset : Word := 3

/-- Runs `k` on one register read through `MemRead`. The agents' offsets are always in range, since
N >= 4 (91 N25); out of range nothing happens. -/
def withReg (a : Word) (s : State) (k : Word → State) : State :=
  match memRead s a 1 with
  | some [v] => k v
  | _ => s

/-- One register written through `MemWrite`; a failed access changes nothing (R57). -/
def setReg (a : Word) (v : Word) (s : State) : State :=
  (memWrite s a 1 [v]).getD s

/-! ## The counter agent (R191) -/

/-- Milliseconds between two increments (R191). -/
def firePeriod : Nat := 1000

/-- How many increments a tick at `now` makes. R191: one if `now >= lastFire + 1000`. With
`counterCatchUp` every whole period that has passed counts (91 N14 leaves it open, log 7). -/
def firesDue (p : Params) (lastFire now : Nat) : Nat :=
  if lastFire + firePeriod ≤ now then
    if p.counterCatchUp then (now - lastFire) / firePeriod else 1
  else 0

/-- `k` increments on top of the value `v` that register 3 holds, and `lastFire` moved on by as many
periods (R191). -/
def counterFire (k : Nat) (v : Word) (s : State) : State :=
  let t := setReg counterOffset (v + BitVec.ofNat 16 k) s
  { t with agents := { t.agents with lastFire := t.agents.lastFire + firePeriod * k } }

/-- Tick Loop step b: `x[3] <- (x[3] + 1) mod 2^16` and `lastFire <- lastFire + 1000`, once for every
increment due (R191). -/
def counterTick (now : Nat) (s : State) : State :=
  let k := firesDue s.params s.agents.lastFire now
  if k = 0 then s else withReg counterOffset s fun v => counterFire k v s

/-! ## The LED agent (R192) -/

/-- Meanings of `LED_MODE` (R24). -/
inductive LedMode where
  | off
  | on
  | blink
deriving DecidableEq, Repr

/-- 1 = Off, 2 = On, 3 = Blink; every other value is treated as Off (R24). -/
def ledModeOf (v : Word) : LedMode :=
  if v = 3 then .blink else if v = 2 then .on else .off

/-- What the state register shows for a level: 0 low, 1 high (R26). -/
def levelWord : Level → Word
  | .low => 0
  | .high => 1

/-- The opposite level. -/
def Level.toggled : Level → Level
  | .low => .high
  | .high => .low

/-- Whether Blink toggles on a tick at `now`: the deadline has come (R192). With an interval of 0 and the
deadline still ahead the spec says both "toggle every tick" (R25, R192, 93 U7) and "takes effect on the
next scheduled transition boundary" (R216): DESIGN CHOICE, the parameter `atOnce` decides (log 19). -/
def blinkDue (atOnce : Bool) (blinkMs : Word) (now deadline : Nat) : Bool :=
  decide (deadline ≤ now) || (atOnce && blinkMs == 0)

/-- The output and the deadline after a tick at `now` (R192). The point left open for an interval of 0
is `blinkDue`'s. -/
def ledNext (atOnce : Bool) (mode : LedMode) (blinkMs : Word) (now : Nat) (out : Level)
    (deadline : Nat) : Level × Nat :=
  match mode with
  | .off => (.low, deadline)
  | .on => (.high, deadline)
  | .blink =>
    if blinkDue atOnce blinkMs now deadline then (out.toggled, now + blinkMs.toNat)
    else (out, deadline)

/-- The output and the deadline become those given; `x[2]` is written when the output changes (R192),
or on every tick under `LED_MIRROR_ALWAYS` (92 D22). -/
def ledApply (next : Level × Nat) (s : State) : State :=
  let t := if next.1 = s.agents.ledOut ∧ s.params.ledMirrorAlways = false then s
    else setReg ledStateOffset (levelWord next.1) s
  { t with agents := { t.agents with ledOut := next.1, deadline := next.2 } }

/-- Tick Loop step c: `x[0]` and `x[1]` are read fresh on every tick (R192). -/
def ledTick (now : Nat) (s : State) : State :=
  withReg ledModeOffset s fun mode =>
    withReg blinkMsOffset s fun ms =>
      ledApply (ledNext s.params.blinkZeroAtOnce (ledModeOf mode) ms now s.agents.ledOut
        s.agents.deadline) s

/-! ## The Connection Manager (R193) -/

/-- A connection is usable: connected, and the peer is still there. -/
def Agents.live (g : Agents) : Bool :=
  decide (g.conn = .connected) && !g.peerGone

/-- Detection of a lost connection, in `acceptIfNeeded` and in `receive` (R193). -/
def detectLoss (s : State) : State :=
  if s.agents.live then s
  else { s with agents := { s.agents with conn := .disconnected, peerGone := false } }

/-- The accept attempt starts: Disconnected to Accepting (R193). -/
def startAccept (g : Agents) : Agents := { g with conn := .accepting }

/-- The accept attempt ends, without blocking: Accepting to Connected, or back (R193). -/
def finishAccept (success : Bool) (g : Agents) : Agents :=
  { g with conn := if success then .connected else .disconnected, peerGone := false }

/-- `acceptIfNeeded()`: a connected client is kept; a dead one is replaced (R193). -/
def acceptIfNeeded (success : Bool) (s : State) : State :=
  let t := detectLoss s
  if t.agents.live then t
  else { t with agents := finishAccept success (startAccept t.agents) }

/-- The peer closes or the connection fails. Nothing shows until it is detected (R193, log 9). -/
def peerClose (s : State) : State :=
  if s.agents.live then { s with agents := { s.agents with peerGone := true } } else s

/-! ## Reset -/

/-- Process start again (R210, R211): every register to its reset value, the agents to theirs, and
nothing of the run before survives. The parameters are constant (R13); the moves still to come and the
count of free values drawn are the model's own (log 17). -/
def resetMachine (s : State) : State :=
  { State.resetWith s.params with diagDraws := s.diagDraws, script := s.script }

end Sys2Proof.Machine
end

