-- ==== Sys2Proof/Machine/Illegal.lean ====
section
/-! DEFINITION. Every other function code (43_illegal_function.md). -/

namespace Sys2Proof.Machine

/-- `ILLEGAL` (R160): `IllegalFunction`, before any length is looked at; `rest` is not read. -/
def execIllegal (h : Header) (fc : Byte) (_rest : List Byte) (s : State) : Result :=
  .next (raise .illegalFunction h fc s)

end Sys2Proof.Machine
end

