-- ==== Sys2Proof/Machine/Read.lean ====
section
/-! DEFINITION. Function code 3 (41_read_holding_registers.md). -/

namespace Sys2Proof.Machine

/-- `RHR` (R130), after the header length check of R117. -/
def execRhr (h : Header) (p : ReadPdu) (s : State) : Result :=
  if lengthAgrees h.mlen (8 + p.size) then
    match p with
    | .badSize _ => .next (raise .illegalDataValue h fcRead s)
    | .fields startAddr count =>
      match memRead s startAddr count with
      | none => .next (raise .illegalDataAddress h fcRead s)
      | some r => .next (respond (encodeReadResponse h.tid h.uid r) s)
  else .next (raise .illegalDataValue h fcRead s)

end Sys2Proof.Machine
end

