-- ==== Sys2Proof/Machine/Write.lean ====
section
/-! DEFINITION. Function codes 6 and 16 (42_write_registers.md). -/

namespace Sys2Proof.Machine

/-- `WSR` (R140), after the header length check of R117. -/
def execWsr (h : Header) (p : WriteSinglePdu) (s : State) : Result :=
  if lengthAgrees h.mlen (8 + p.size) then
    match p with
    | .badSize _ => .next (raise .illegalDataValue h fcWriteSingle s)
    | .fields startAddr value =>
      match memWrite s startAddr 1 [value] with
      | none => .next (raise .illegalDataAddress h fcWriteSingle s)
      | some t => .next (respond (encodeWriteSingleResponse h.tid h.uid startAddr value) t)
  else .next (raise .illegalDataValue h fcWriteSingle s)

/-- `WMR` (R141), after the header length check of R117: the declared sizes first, then the bound
check, then the whole write at once. -/
def execWmr (h : Header) (p : WriteMultiplePdu) (s : State) : Result :=
  if lengthAgrees h.mlen (8 + p.size) then
    match p with
    | .short _ => .next (raise .illegalDataValue h fcWriteMultiple s)
    | .fields startAddr count byteCount data =>
      if byteCountAgrees byteCount count && dataLengthAgrees byteCount data then
        match memWrite s startAddr count (dataWords data) with
        | none => .next (raise .illegalDataAddress h fcWriteMultiple s)
        | some t => .next (respond (encodeWriteMultipleResponse h.tid h.uid startAddr count) t)
      else .next (raise .illegalDataValue h fcWriteMultiple s)
  else .next (raise .illegalDataValue h fcWriteMultiple s)

end Sys2Proof.Machine
end

