-- ==== Sys2Proof/Machine/Dispatch.lean ====
section
/-! DEFINITION. One arm per constructor of Instr (40_frame_parser.md R116). -/

namespace Sys2Proof.Machine

def exec (i : Instr) (s : State) : Host.Outcome State Fault Refusal :=
  match i with
  | .rhr h p => Sys2Proof.Machine.execRhr h p s
  | .wsr h p => Sys2Proof.Machine.execWsr h p s
  | .wmr h p => Sys2Proof.Machine.execWmr h p s
  | .illegal h fc rest => Sys2Proof.Machine.execIllegal h fc rest s

end Sys2Proof.Machine
end

