-- ==== Sys2Proof/Machine/Cycle.lean ====
section
/-! DEFINITION. The service cycle (40_frame_parser.md R110) and what each move of the environment does. -/

namespace Sys2Proof.Machine

/-- Decode and dispatch what the receive buffer holds (R110 steps 2 and 3, R112 to R116). -/
def serveBuffer (s : State) : Result :=
  match decode s.rx with
  | .rejected r => .next (dropFrame r s)
  | .instr i => exec i s

/-- `service(pending, send_ok)` (R110). -/
def serviceCycle (pending : List Byte) (sendOk : Bool) (s : State) : Result :=
  serveBuffer (receive pending sendOk s)

/-- A service cycle behind the Connection Manager: no bytes and no successful send without a live
connection; receive detects a lost one (R193, R185). -/
def sessionCycle (pending : List Byte) (sendOk : Bool) (s : State) : Result :=
  if s.agents.live then serviceCycle pending sendOk s
  else serviceCycle [] false (detectLoss s)

/-- One iteration of the Tick Loop in its fixed order: service cycle, counter, LED (R190, R61). The
30 s diagnostic emission is out of scope (93 U5, log 10). -/
def tickLoop (pending : List Byte) (sendOk : Bool) (now : Nat) (s : State) : Result :=
  match sessionCycle pending sendOk s with
  | .next t => .next (ledTick now (counterTick now t))
  | .fault r => .fault r
  | .refused r => .refused r

/-- What a move of the environment does (R12). -/
def runMove (m : Move) (s : State) : Result :=
  match m with
  | .service pending sendOk => serviceCycle pending sendOk s
  | .localRead a n => .next (localRead a n s)
  | .localWrite a n vs =>
    if vs.length = n.toNat then .next (localWrite a n vs s) else .refused .illFormedLocalWrite
  | .reset => .next (resetMachine s)
  | .session pending sendOk => sessionCycle pending sendOk s
  | .counter now => .next (counterTick now s)
  | .led now => .next (ledTick now s)
  | .tick pending sendOk now => tickLoop pending sendOk now s
  | .accept success => .next (acceptIfNeeded success s)
  | .peerClose => .next (peerClose s)

/-- The next move of the script, and the rest. With no move left the step is a service cycle in which
nothing is received (`IDLE`, R97, R112): "the block does nothing on its own" (R13, log 1). -/
def nextMove (s : State) : Move × List Move :=
  match s.script with
  | [] => (.service [] s.sendOk, [])
  | m :: rest => (m, rest)

/-- Take the next move and run it with the ports empty. -/
def runScript (s : State) : Result :=
  runMove (nextMove s).1 (openPorts { s with script := (nextMove s).2 })

/-- The frame of a table word, placed where the next step receives it: as the bytes pending at the next
service cycle, with a send that succeeds (log 12). -/
def placeFrame (s : State) (nbits w : Nat) : State :=
  { s with script := .service (tableFrame nbits w) true :: s.script }

end Sys2Proof.Machine
end

