-- ==== Sys2Proof/Machine/Step.lean ====
section
/-! DEFINITION. One step of the machine (00_scope.md R5, R6, R12). -/

namespace Sys2Proof.Machine

/-- One step: the environment's next move. Parameters outside R4's constraints are refused (R13, 93
X12). -/
def step (s : State) : Host.Outcome State Fault Refusal :=
  if s.params.ok then runScript s else .refused .badParameters

/-- `s` with the instruction of a table word as the next thing `step` receives and runs. -/
def State.withFetchWord (s : State) (nbits w : Nat) : State :=
  placeFrame s nbits w

end Sys2Proof.Machine
end

