-- ==== Sys2Proof/Safety.lean ====
section
/-! DEFINITION. What counts as a safe state of the machine, and the terms the claims use. -/

namespace Sys2Proof

/-- The frame's declared lengths agree with its bytes (R94): `mlen = L - 6`, `L = 12` for `RHR` and
`WSR`; `byteCount = 2 * count` and `L = 13 + byteCount` for `WMR`. -/
def Instr.wellSized : Instr → Bool
  | .rhr h (.fields _ _) => h.mlen.toNat == 6
  | .rhr _ (.badSize _) => false
  | .wsr h (.fields _ _) => h.mlen.toNat == 6
  | .wsr _ (.badSize _) => false
  | .wmr h (.fields _ count k data) =>
    h.mlen.toNat == 7 + data.length && k.toNat == 2 * count.toNat && data.length == k.toNat
  | .wmr _ (.short _) => false
  | .illegal _ _ _ => false

/-- `i` is one of the three supported function codes (R91). -/
def Instr.supported : Instr → Bool
  | .illegal _ _ _ => false
  | _ => true

/-- The registers a request accesses: first offset and number (R130, R140, R141). -/
def Instr.access : Instr → Option (Nat × Nat)
  | .rhr _ (.fields a n) => some (a.toNat, n.toNat)
  | .wsr _ (.fields a _) => some (a.toNat, 1)
  | .wmr _ (.fields a n _ _) => some (a.toNat, n.toNat)
  | _ => none

/-- The request is a store (R140, R141). -/
def Instr.stores : Instr → Bool
  | .wsr _ _ => true
  | .wmr _ _ => true
  | _ => false

/-- The function code of the frame (R82). -/
def Instr.functionCode : Instr → Byte
  | .rhr _ _ => 0x03
  | .wsr _ _ => 0x06
  | .wmr _ _ => 0x10
  | .illegal _ fc _ => fc

end Sys2Proof

namespace Sys2Proof.Machine

/-- The register file has its fixed length N (R20): the one canonical form of this machine's storage. -/
abbrev State.regsWf (s : State) : Prop := s.regs.length = s.params.n

/-- The shape of every response (R80, R81, R87 to R90, R95): protocol id 0, the length field is the
number of bytes after it with its high byte 0 (R165), 9 to `9 + 2N` bytes in all. -/
def responseShape (n : Nat) : List Byte → Bool
  | _ :: _ :: p0 :: p1 :: l0 :: l1 :: _ :: _ :: _ :: rest =>
    p0 == 0 && p1 == 0 && l0 == 0 && l1.toNat == 3 + rest.length && decide (rest.length ≤ 2 * n)
  | _ => false

/-- `f` answers the frame `b`: it carries the transaction id, the unit id and the function code of the
request, the last with or without its high bit set (R120, R165, R90). -/
def answers : List Byte → List Byte → Bool
  | t0 :: t1 :: _ :: _ :: _ :: _ :: u :: fc :: _, t0' :: t1' :: _ :: _ :: _ :: _ :: u' :: fc' :: _ =>
    t0' == t0 && t1' == t1 && u' == u && (fc' == fc || fc' == fc ||| 0x80)
  | _, _ => false

/-- What a step may leave on the transmit port: nothing, or one well-shaped answer to the bytes in the
receive buffer (R120). -/
abbrev State.txWf (s : State) : Prop :=
  (s.tx.all fun f => responseShape s.params.n f && answers s.rx f) = true

/-- The Connection Manager rests in Disconnected or Connected, and only a connected peer can be gone
(R193). -/
abbrev Agents.wf (g : Agents) : Prop :=
  g.conn ≠ .accepting ∧ (g.peerGone = true → g.conn = .connected)

/-- The invariant of the machine: legal parameters (R4), a register file of N registers (R20), at most
RX_MAX bytes received (R32), a well-formed transmit port, legal agents. -/
abbrev State.Inv (s : State) : Prop :=
  s.params.ok = true ∧ s.regsWf ∧ s.rx.length ≤ s.params.rxMax ∧ s.txWf ∧ s.agents.wf

/-- The bytes the client gets in a service cycle: a frame whose send failed is lost (R119, R12). -/
def State.wire (s : State) : Option (List Byte) := if s.sendOk then s.tx else none

/-- Diagnostic events of a send: `SendFailed` exactly when `send_ok` is false (R119). -/
def sendDiag (sendOk : Bool) : List DiagEvent := if sendOk then [] else [.sendFailed]

/-- The nine bytes of an exception response (R90). -/
def exceptionBytes (h : Header) (fc code : Byte) : List Byte :=
  [h.tid.extractLsb' 8 8, h.tid.extractLsb' 0 8, 0, 0, 0, 3, h.uid, fc ||| 0x80, code]

/-- The bytes a move brings to the parser, if it is a service cycle (R110, R190, R193). -/
def Move.received (g : Agents) : Move → Option (List Byte)
  | .service p _ => some p
  | .session p _ => some (if g.live then p else [])
  | .tick p _ _ => some (if g.live then p else [])
  | _ => none

/-- R13 asks of the environment that a local write carries as many values as it says. -/
def Move.wellFormed : Move → Bool
  | .localWrite _ n vs => vs.length == n.toNat
  | _ => true

/-! ## R110 in the spec's own form

A transcription of the procedure of R110 and of the pseudocode of R130, R140, R141 and R160 over byte
indices, with no decoder and no `Instr`: what `step` is held against. -/

/-- `b[i]` (R8); the checks come before the bytes they guard are read. -/
def byteAt (b : List Byte) (i : Nat) : Byte := b.getD i 0

/-- `be16(b, i)` (R8). -/
def fieldAt (b : List Byte) (i : Nat) : Word := byteAt b i ++ byteAt b (i + 1)

/-- The registers after, and the response of, one service cycle (R110, R182). -/
def serviceSpec (n rxMax : Nat) (x : List Word) (b : List Byte) : List Word × Option (List Byte) :=
  let exception (code : Byte) : List Word × Option (List Byte) :=
    (x, some [byteAt b 0, byteAt b 1, 0, 0, 0, 3, byteAt b 6, byteAt b 7 ||| 0x80, code])
  if rxMax < b.length then (x, none)
  else if b.length = 0 then (x, none)
  else if b.length < 8 then (x, none)
  else if fieldAt b 2 ≠ 0 then (x, none)
  else if byteAt b 7 ≠ 0x03 ∧ byteAt b 7 ≠ 0x06 ∧ byteAt b 7 ≠ 0x10 then exception 1
  else if (fieldAt b 4).toNat ≠ b.length - 6 then exception 3
  else
    let a := (fieldAt b 8).toNat
    let c := (fieldAt b 10).toNat
    if byteAt b 7 = 0x03 then
      if b.length ≠ 12 then exception 3
      else if n < a + c then exception 2
      else
        (x, some ([byteAt b 0, byteAt b 1, 0, 0, 0, BitVec.ofNat 8 (3 + 2 * c), byteAt b 6, 0x03,
            BitVec.ofNat 8 (2 * c)]
          ++ (List.range c).flatMap fun i =>
            [(x.getD (a + i) 0).extractLsb' 8 8, (x.getD (a + i) 0).extractLsb' 0 8]))
    else if byteAt b 7 = 0x06 then
      if b.length ≠ 12 then exception 3
      else if n < a + 1 then exception 2
      else (x.set a (fieldAt b 10), some b)
    else
      if b.length < 13 then exception 3
      else if (byteAt b 12).toNat ≠ 2 * c then exception 3
      else if b.length ≠ 13 + (byteAt b 12).toNat then exception 3
      else if n < a + c then exception 2
      else
        ((List.range n).map fun i =>
            if a ≤ i ∧ i < a + c then fieldAt b (13 + 2 * (i - a)) else x.getD i 0,
          some [byteAt b 0, byteAt b 1, 0, 0, 0, 6, byteAt b 6, 0x10, byteAt b 8, byteAt b 9,
            byteAt b 10, byteAt b 11])

end Sys2Proof.Machine
end

