-- ==== Sys2Proof/Certificates/Slice0/Obligations.lean ====
section
/-! DEFINITION. The statements for the provers. Each docstring names the rule of spec/ it formalises;
where a clause rests on the model's own choice it says so and names the log entry. -/

open Sys2Proof Sys2Proof.Machine

/-! ## Reset -/

/-- R36: the reset value of every register, for the reference parameters and for every legal choice of
the `RESET_*` parameters and of N; and the two buffers have no content that matters: a service cycle
right after reset is the same whatever they hold. -/
def Obligations.ResetLoadsTheRegisterFile : Prop :=
  State.reset.regs = [3, 250, 0, 0, 0, 0, 0, 0, 0, 0] ∧
  (∀ p : Params, p.ok = true →
    (State.resetWith p).regs.length = p.n ∧
    (State.resetWith p).regs[0]? = some p.resetLedMode ∧
    (State.resetWith p).regs[1]? = some p.resetBlinkMs ∧
    (State.resetWith p).regs[2]? = some p.resetLedState ∧
    (State.resetWith p).regs[3]? = some p.resetCounter ∧
    ∀ i, 4 ≤ i → i < p.n → (State.resetWith p).regs[i]? = some p.resetSpare) ∧
  ∀ (p : Params) (pending received : List Byte) (sent : Option (List Byte)) (ok : Bool)
    (rest : List Move),
    step { State.resetWith p with
      rx := received, tx := sent, script := .service pending ok :: rest } =
    step { State.resetWith p with script := .service pending ok :: rest }

/-- The invariant of the model holds right after reset, for every legal parameter choice. The port
fields' reset values are the model's choice (log 3). -/
def Obligations.ResetMeetsTheInvariant : Prop :=
  State.reset.Inv ∧ ∀ p : Params, p.ok = true → (State.resetWith p).Inv

/-- R210, R211 (with decision D20): a reset move loads the reset values again, whatever the state was,
and nothing of the run before survives; the parameters stay (R13). What else stays is the model's own
bookkeeping (log 17). -/
def Obligations.ResetMoveForgetsTheRunBefore : Prop :=
  ∀ (s : State) (rest : List Move), s.params.ok = true → s.script = .reset :: rest →
    step s = .next
      { State.resetWith s.params with diagDraws := s.diagDraws, script := rest }

/-! ## Steps -/

/-- A step runs the decoded instruction (R110, R116): when the bytes a service cycle receives decode to
`i`, the step is `exec i` with those bytes in the receive buffer, the environment's answer to the send,
and empty ports. The same holds behind the Connection Manager while a client is connected (R193). -/
def Obligations.StepRunsTheDecodedRequest : Prop :=
  ∀ (s : State) (pending : List Byte) (ok : Bool) (rest : List Move) (i : Instr),
    s.params.ok = true → pending.length ≤ s.params.rxMax → decode pending = .instr i →
    (s.script = .service pending ok :: rest ∨
      (s.script = .session pending ok :: rest ∧ s.agents.conn = .connected ∧
        s.agents.peerGone = false)) →
    step s = exec i { s with
      script := rest, rx := pending, sendOk := ok, tx := none, diag := [], loc := none }

/-- The instruction of a table word, placed by `withFetchWord`, is what the next step runs (the model's
choice of layout, log 12). -/
def Obligations.PlacedTableWordRunsNext : Prop :=
  ∀ (s : State) (nbits w : Nat) (i : Instr),
    s.params.ok = true → (tableFrame nbits w).length ≤ s.params.rxMax →
    decodeTableWord nbits w = some i →
    step (s.withFetchWord nbits w) = exec i { s with
      rx := tableFrame nbits w, sendOk := true, tx := none, diag := [], loc := none }

/-- R12, R187: no step is ever stuck. With legal parameters and a script whose local writes carry as
many values as they say, every step answers a next state. -/
def Obligations.NoStepIsEverStuck : Prop :=
  ∀ s : State, s.params.ok = true → (s.script.all Move.wellFormed) = true →
    ∃ t, step s = .next t

/-- R4, R13 with decisions D4 and D5 (93 X12): outside the constraints the model refuses; a local write
whose number of values is not its length is refused too (the model's choice, log 13). -/
def Obligations.IllegalChoicesAreRefused : Prop :=
  (∀ s : State, s.params.n < 4 ∨ 125 < s.params.n ∨ s.params.rxMax < 12 →
    step s = .refused .badParameters) ∧
  (∀ (s : State) (a n : Word) (vs : List Word) (rest : List Move), s.params.ok = true →
    s.script = .localWrite a n vs :: rest → vs.length ≠ n.toNat →
    step s = .refused .illFormedLocalWrite)

/-- The invariant is kept by every step, whatever the environment does: the register file keeps its
length N (R20), what stands on the transmit port is nothing or one well-shaped frame (R95, R165) that
answers the bytes received in the same cycle (R120), the receive buffer holds at most RX_MAX bytes
(R32), and the Connection Manager rests in a legal state (R193). -/
def Obligations.EveryStepKeepsTheInvariant : Prop :=
  ∀ s t : State, s.Inv → step s = .next t → t.Inv

/-- R13: no step changes a parameter, and a step consumes exactly one move of the environment (log 1). -/
def Obligations.StepsKeepTheParameters : Prop :=
  ∀ s t : State, step s = .next t → t.params = s.params ∧ t.script = s.script.tail

/-! ## Encodings -/

/-- Words written out byte by byte from R84, R85, R86 and R91 decode to the instruction they stand
for. -/
def Obligations.WrittenOutFramesDecode : Prop :=
  decode [0x00, 0x01, 0x00, 0x00, 0x00, 0x06, 0x01, 0x03, 0x00, 0x08, 0x00, 0x05]
    = .instr (.rhr ⟨1, 6, 1⟩ (.fields 8 5)) ∧
  decode [0xBE, 0xEF, 0x00, 0x00, 0x00, 0x06, 0xFF, 0x06, 0x01, 0x02, 0xCA, 0xFE]
    = .instr (.wsr ⟨0xBEEF, 6, 0xFF⟩ (.fields 0x0102 0xCAFE)) ∧
  decode [0x00, 0x29, 0x00, 0x00, 0x00, 0x09, 0x01, 0x10, 0x00, 0x03, 0x00, 0x01, 0x02, 0x00, 0xFF]
    = .instr (.wmr ⟨0x29, 9, 1⟩ (.fields 3 1 2 [0x00, 0xFF])) ∧
  decode [0x00, 0x33, 0x00, 0x00, 0x00, 0x63, 0x01, 0x01, 0x7F]
    = .instr (.illegal ⟨0x33, 0x63, 1⟩ 0x01 [0x7F]) ∧
  decode [0x00, 0x01, 0x00, 0x01, 0x00, 0x06, 0x01, 0x03, 0x00, 0x00, 0x00, 0x01]
    = .rejected .badProtocol

/-- Every frame of the instruction set decodes back from its encoding, with every operand at every value
(R81 to R86). -/
def Obligations.DecodeInvertsEncode : Prop :=
  ∀ i : Instr, i.wellFormed = true → decode (encode i) = .instr i

/-- Every accepted byte sequence is the encoding of the instruction it decodes to: no byte of a frame is
dropped, and no two frames mean the same instruction (R81 to R86, R91). -/
def Obligations.EncodeInvertsDecode : Prop :=
  ∀ (b : List Byte) (i : Instr), decode b = .instr i →
    encode i = b ∧ i.wellFormed = true ∧ i.size = b.length

/-- R93 (b), (c), R112, R113, R115: exactly which byte sequences hold no instruction. -/
def Obligations.RejectedFramesAreTheShortAndTheForeign : Prop :=
  ∀ b : List Byte,
    (decode b = .rejected .empty ↔ b.length = 0) ∧
    (decode b = .rejected .runt ↔ 1 ≤ b.length ∧ b.length ≤ 7) ∧
    (decode b = .rejected .badProtocol ↔ 8 ≤ b.length ∧ ¬ (b[2]? = some 0 ∧ b[3]? = some 0))

/-- R96: the match and mask of every row of the opcode table, over the word `W` of the first eight
bytes, select the row's instruction, and `tid`, `len`, `uid` and `fc` are the bits of `W` the rule
names. -/
def Obligations.MatchWordsSelectTheirRows : Prop :=
  ∀ (w : BitVec 64) (rest : List Byte) (b : List Byte) (h : Header),
    b = [w.extractLsb' 56 8, w.extractLsb' 48 8, w.extractLsb' 40 8, w.extractLsb' 32 8,
      w.extractLsb' 24 8, w.extractLsb' 16 8, w.extractLsb' 8 8, w.extractLsb' 0 8] ++ rest →
    h = ⟨w.extractLsb' 48 16, w.extractLsb' 16 16, w.extractLsb' 8 8⟩ →
    (w &&& 0x0000FFFF000000FF#64 = 0x03#64 → ∃ p, decode b = .instr (.rhr h p)) ∧
    (w &&& 0x0000FFFF000000FF#64 = 0x06#64 → ∃ p, decode b = .instr (.wsr h p)) ∧
    (w &&& 0x0000FFFF000000FF#64 = 0x10#64 → ∃ p, decode b = .instr (.wmr h p)) ∧
    (w &&& 0x0000FFFF00000000#64 = 0 → w &&& 0x0000FFFF000000FF#64 ≠ 0x03#64 →
      w &&& 0x0000FFFF000000FF#64 ≠ 0x06#64 → w &&& 0x0000FFFF000000FF#64 ≠ 0x10#64 →
      decode b = .instr (.illegal h (w.extractLsb' 0 8) rest)) ∧
    (w &&& 0x0000FFFF00000000#64 ≠ 0 → decode b = .rejected .badProtocol)

/-- R8, R83: a `u16` field is its two bytes, most significant first, and `be16` and `bytes16` are
inverse. -/
def Obligations.FieldsAreBigEndian : Prop :=
  (∀ hi lo : Byte, (be16 hi lo).toNat = 256 * hi.toNat + lo.toNat ∧ bytes16 (be16 hi lo) = [hi, lo]) ∧
  (∀ v : Word, ∃ hi lo : Byte, bytes16 v = [hi, lo] ∧ be16 hi lo = v)

/-! ## The register file -/

/-- R54 (with decision D15): the bound check is `a + n <= N` over the integers, with the consequences
the rule lists. -/
def Obligations.BoundCheckDoesNotWrap : Prop :=
  ∀ (N : Nat) (a n : Word),
    (inRange N a n = true ↔ a.toNat + n.toNat ≤ N) ∧
    (inRange N a n = true ↔ (a.setWidth 17 + n.setWidth 17).toNat ≤ N) ∧
    (n = 0 → (inRange N a n = true ↔ a.toNat ≤ N)) ∧
    (n = 1 → (inRange N a n = true ↔ a.toNat < N)) ∧
    (N < n.toNat → inRange N a n = false) ∧
    (N < a.toNat → inRange N a n = false)

/-- R55: `read` answers `OutOfRange`, or the `n` values held at `a` to `a + n - 1`, in order; on the
local port it changes nothing but the port's result. -/
def Obligations.ReadCopiesTheSlice : Prop :=
  ∀ (s : State) (a n : Word), s.regsWf →
    (s.params.n < a.toNat + n.toNat → memRead s a n = none ∧
      localRead a n s = { s with loc := some .outOfRange }) ∧
    (a.toNat + n.toNat ≤ s.params.n → ∃ vs, memRead s a n = some vs ∧
      localRead a n s = { s with loc := some (.values vs) } ∧ vs.length = n.toNat ∧
      ∀ i, i < n.toNat → vs[i]? = s.regs[a.toNat + i]?)

/-- R56: `write` answers `OutOfRange` and changes nothing, or writes `x[a+i] <- vs[i]` for every
`i < n` and nothing else, all in one update. -/
def Obligations.WriteOverwritesExactlyTheSlice : Prop :=
  ∀ (s : State) (a n : Word) (vs : List Word), s.regsWf → vs.length = n.toNat →
    (s.params.n < a.toNat + n.toNat → memWrite s a n vs = none) ∧
    (a.toNat + n.toNat ≤ s.params.n → ∃ t, memWrite s a n vs = some t ∧
      t = { s with regs := t.regs } ∧ t.regs.length = s.regs.length ∧
      (∀ i, i < n.toNat → t.regs[a.toNat + i]? = vs[i]?) ∧
      (∀ j, j < a.toNat ∨ a.toNat + n.toNat ≤ j → t.regs[j]? = s.regs[j]?))

/-- R57: a failed access changes nothing on either port, and repeating it gives the same failure and
the same state. -/
def Obligations.FailedAccessChangesNothing : Prop :=
  ∀ (s : State) (a n : Word) (vs : List Word), s.params.n < a.toNat + n.toNat →
    memRead s a n = none ∧ memWrite s a n vs = none ∧
    localRead a n s = { s with loc := some .outOfRange } ∧
    localWrite a n vs s = { s with loc := some .outOfRange } ∧
    localWrite a n vs (localWrite a n vs s) = localWrite a n vs s ∧
    ∀ (i : Instr) (t u : State), i.access = some (a.toNat, n.toNat) →
      exec i s = .next t → exec i t = .next u →
      t.regs = s.regs ∧ u.regs = s.regs ∧ u.tx = t.tx

/-- R58: `write` followed by `read` at the same range returns exactly the written values. -/
def Obligations.WriteThenReadRoundTrips : Prop :=
  ∀ (s t : State) (a n : Word) (vs : List Word), s.regsWf → vs.length = n.toNat →
    memWrite s a n vs = some t → memRead t a n = some vs

/-- R34 (with decision D19): the local port is the same two accessors, one step each, between service
cycles. -/
def Obligations.LocalPortUsesTheSameAccessors : Prop :=
  ∀ (s : State) (a n : Word) (vs : List Word) (rest : List Move), s.params.ok = true →
    (s.script = .localRead a n :: rest → ∃ t, step s = .next t ∧ t.regs = s.regs ∧ t.tx = none ∧
      t.loc = match memRead s a n with
        | some r => some (.values r)
        | none => some .outOfRange) ∧
    (s.script = .localWrite a n vs :: rest → vs.length = n.toNat →
      ∃ t, step s = .next t ∧ t.tx = none ∧
        match memWrite s a n vs with
        | some u => t.regs = u.regs ∧ t.loc = some .ok
        | none => t.regs = s.regs ∧ t.loc = some .outOfRange)

/-! ## The instructions: results and completion -/

/-- R130, R87, R166: a well-sized `RHR` in range completes. Its response is the 9-byte head of `RSP_RD`
and then the two bytes of `x[a]`, `x[a+1]`, … in order; nothing but the transmit and diagnostic ports
changes (frame). Zero counts are included (decision D16). -/
def Obligations.RhrAnswersTheRegisterValues : Prop :=
  ∀ (s : State) (h : Header) (a n : Word), s.params.ok = true → s.regsWf → h.mlen = 6 →
    a.toNat + n.toNat ≤ s.params.n →
    ∃ f, exec (.rhr h (.fields a n)) s =
        .next { s with tx := some f, diag := s.diag ++ sendDiag s.sendOk } ∧
      f.length = 9 + 2 * n.toNat ∧
      f.take 9 = [h.tid.extractLsb' 8 8, h.tid.extractLsb' 0 8, 0, 0, 0,
        BitVec.ofNat 8 (3 + 2 * n.toNat), h.uid, 0x03, BitVec.ofNat 8 (2 * n.toNat)] ∧
      ∀ i v, i < n.toNat → s.regs[a.toNat + i]? = some v →
        f[9 + 2 * i]? = some (v.extractLsb' 8 8) ∧ f[10 + 2 * i]? = some (v.extractLsb' 0 8)

/-- R140: the whole of `WSR`. Well sized and in range it completes: `x[a] <- v`, nothing else of the
register file changes, and the response is the request byte for byte; this holds whatever the send
answers. Out of range: code 2 and `MalformedRequest`. Of another size, or with `mlen /= L - 6`: code 3.
No exception changes a register. Every value is accepted for every register. -/
def Obligations.WsrStoresOneRegister : Prop :=
  ∀ (s : State) (h : Header),
    (∀ a v : Word, h.mlen = 6 → a.toNat < s.params.n →
      exec (.wsr h (.fields a v)) s = .next { s with
        regs := s.regs.set a.toNat v
        tx := some (encode (.wsr h (.fields a v)))
        diag := s.diag ++ sendDiag s.sendOk }) ∧
    (∀ a v : Word, h.mlen = 6 → s.params.n ≤ a.toNat →
      exec (.wsr h (.fields a v)) s = .next { s with
        tx := some (exceptionBytes h 0x06 2)
        diag := s.diag ++ [.malformedRequest] ++ sendDiag s.sendOk }) ∧
    (∀ p : WriteSinglePdu, (p.size ≠ 4 ∨ h.mlen.toNat ≠ 2 + p.size) →
      ∃ t, exec (.wsr h p) s = .next t ∧ t.regs = s.regs ∧
        t.tx = some (exceptionBytes h 0x06 3)) ∧
    exceptionBytes h 0x06 2 = [h.tid.extractLsb' 8 8, h.tid.extractLsb' 0 8, 0, 0, 0, 3, h.uid,
      0x86, 2]

/-- R141, R56, R89, R168 (with decisions D7, D16): a well-sized `WMR` in range completes. Register
`a + i` becomes `be16` of the i-th two data bytes for every `i < n`, no other register changes, the
response echoes address and count; nothing else changes but the diagnostic port (frame). -/
def Obligations.WmrStoresTheSliceAtOnce : Prop :=
  ∀ (s : State) (h : Header) (a n : Word) (k : Byte) (data : List Byte), s.regsWf →
    h.mlen.toNat = 7 + data.length → k.toNat = 2 * n.toNat → data.length = k.toNat →
    a.toNat + n.toNat ≤ s.params.n →
    ∃ regs', exec (.wmr h (.fields a n k data)) s = .next { s with
        regs := regs'
        tx := some ([h.tid.extractLsb' 8 8, h.tid.extractLsb' 0 8, 0, 0, 0, 6, h.uid, 0x10]
          ++ bytes16 a ++ bytes16 n)
        diag := s.diag ++ sendDiag s.sendOk } ∧
      regs'.length = s.regs.length ∧
      (∀ i hi lo, i < n.toNat → data[2 * i]? = some hi → data[2 * i + 1]? = some lo →
        regs'[a.toNat + i]? = some (be16 hi lo)) ∧
      (∀ j, j < a.toNat ∨ a.toNat + n.toNat ≤ j → regs'[j]? = s.regs[j]?)

/-- R160, R92 (with decision D18): every other function code completes, whatever its length field and
its other bytes say: the response is exception 1 with the function code's high bit set; nothing but the
transmit and diagnostic ports changes. -/
def Obligations.IllegalFunctionIsAnswered : Prop :=
  ∀ (s : State) (h : Header) (fc : Byte) (rest : List Byte),
    ∃ t, exec (.illegal h fc rest) s = .next t ∧
      t = { s with tx := t.tx, diag := t.diag, diagDraws := t.diagDraws } ∧
      t.tx = some [h.tid.extractLsb' 8 8, h.tid.extractLsb' 0 8, 0, 0, 0, 3, h.uid, fc ||| 0x80, 1]

/-! ## The instructions: exceptions -/

/-- R170, R184: what taking an exception does, for each of the three: the response is the encoder's
exception frame for the request's `tid`, `uid` and `fc`, and its last byte is the exception's code; the
register file and everything but the ports stay; `MalformedRequest` is emitted for `IllegalDataAddress`
only; the send step follows. (Which event the two others emit is a free value, log 4: nothing is claimed
of it beyond that.) -/
def Obligations.TakingAnException : Prop :=
  ∀ (e : ModbusException) (h : Header) (fc : Byte) (s : State),
    (raise e h fc s).tx = some (encodeException h.tid h.uid fc e) ∧
    (encodeException h.tid h.uid fc e).getLast? = some
      (match e with | .illegalFunction => 1 | .illegalDataAddress => 2 | .illegalDataValue => 3) ∧
    raise e h fc s = { s with
      tx := (raise e h fc s).tx, diag := (raise e h fc s).diag,
      diagDraws := (raise e h fc s).diagDraws } ∧
    (raise e h fc s).diag.count .malformedRequest = s.diag.count .malformedRequest +
      (match e with | .illegalDataAddress => 1 | _ => 0) ∧
    (raise e h fc s).diag.count .sendFailed = s.diag.count .sendFailed + (if s.sendOk then 0 else 1)

/-- R117, R130, R141, R180 (with decision D13): a supported function code whose frame fails a size check
is answered with `IllegalDataValue` (code 3), also when it is out of range (D14), and nothing else
changes. The conditions are the rules' own, over `L`, `mlen`, `byteCount` and `count`. -/
def Obligations.SizeFaultsAnswerIllegalDataValue : Prop :=
  ∀ (s : State) (h : Header),
    (∀ p : ReadPdu, (p.size ≠ 4 ∨ h.mlen.toNat ≠ 2 + p.size) →
      ∃ t, exec (.rhr h p) s = .next t ∧ t.tx = some (exceptionBytes h 0x03 3) ∧
        t = { s with tx := t.tx, diag := t.diag, diagDraws := t.diagDraws }) ∧
    (∀ p : WriteMultiplePdu, (p.size < 5 ∨ h.mlen.toNat ≠ 2 + p.size) →
      ∃ t, exec (.wmr h p) s = .next t ∧ t.tx = some (exceptionBytes h 0x10 3) ∧
        t = { s with tx := t.tx, diag := t.diag, diagDraws := t.diagDraws }) ∧
    (∀ (a n : Word) (k : Byte) (data : List Byte),
      (k.toNat ≠ 2 * n.toNat ∨ data.length ≠ k.toNat) →
      ∃ t, exec (.wmr h (.fields a n k data)) s = .next t ∧ t.tx = some (exceptionBytes h 0x10 3) ∧
        t = { s with tx := t.tx, diag := t.diag, diagDraws := t.diagDraws })

/-- R130, R141, R180, R184 (d): a well-sized `RHR` or `WMR` out of range is answered with
`IllegalDataAddress` (code 2), `MalformedRequest` is emitted, and nothing else changes: no register is
written, not even those of the slice that are in range. (`WSR`: `WsrStoresOneRegister`.) -/
def Obligations.AddressFaultsAnswerIllegalDataAddress : Prop :=
  ∀ (s : State) (h : Header) (a n : Word), s.params.n < a.toNat + n.toNat →
    (h.mlen = 6 → exec (.rhr h (.fields a n)) s = .next { s with
      tx := some (exceptionBytes h 0x03 2)
      diag := s.diag ++ [.malformedRequest] ++ sendDiag s.sendOk }) ∧
    (∀ (k : Byte) (data : List Byte), h.mlen.toNat = 7 + data.length → k.toNat = 2 * n.toNat →
      data.length = k.toNat →
      exec (.wmr h (.fields a n k data)) s = .next { s with
        tx := some (exceptionBytes h 0x10 2)
        diag := s.diag ++ [.malformedRequest] ++ sendDiag s.sendOk })

/-- R141 (b): a register count of 128 or more is always malformed, whatever its byte count and its data
are: code 3, and no register changes. -/
def Obligations.CountsAbove127AreMalformed : Prop :=
  ∀ (s : State) (h : Header) (a n : Word) (k : Byte) (data : List Byte), 128 ≤ n.toNat →
    ∃ t, exec (.wmr h (.fields a n k data)) s = .next t ∧ t.regs = s.regs ∧
      t.tx = some (exceptionBytes h 0x10 3)

/-- R181: `IllegalDataValue` is never raised for the value written to a register, only for a payload
size that disagrees with a declared length: no well-sized request gets it, and two writes that differ
only in their values get the same kind of answer, for `WMR` the same bytes. -/
def Obligations.NoValueIsRefused : Prop :=
  ∀ s : State,
    (∀ (i : Instr) (t : State), i.wellSized = true → exec i s = .next t →
      t.tx ≠ some (exceptionBytes i.header i.functionCode 3)) ∧
    (∀ (h : Header) (a v w : Word) (t u : State), exec (.wsr h (.fields a v)) s = .next t →
      exec (.wsr h (.fields a w)) s = .next u →
      (t.tx = some (exceptionBytes h 0x06 3) ↔ u.tx = some (exceptionBytes h 0x06 3)) ∧
      (t.tx = some (exceptionBytes h 0x06 2) ↔ u.tx = some (exceptionBytes h 0x06 2))) ∧
    (∀ (h : Header) (a n : Word) (k : Byte) (d e : List Byte) (t u : State), d.length = e.length →
      exec (.wmr h (.fields a n k d)) s = .next t → exec (.wmr h (.fields a n k e)) s = .next u →
      t.tx = u.tx)

/-! ## The instructions: frames and relations -/

/-- The frame of every instruction (R55, R56, R130, R140, R141, R160, R184): an instruction changes
nothing but registers, the transmit port and the diagnostic port; `RHR` and `ILLEGAL` change no
register; `WSR` and `WMR` change none outside the offsets their own address operands name; the register
file keeps its length. -/
def Obligations.InstructionFrame : Prop :=
  ∀ (i : Instr) (s t : State), s.regsWf → exec i s = .next t →
    t = { s with regs := t.regs, tx := t.tx, diag := t.diag, diagDraws := t.diagDraws } ∧
    t.regs.length = s.regs.length ∧
    (i.stores = false → t.regs = s.regs) ∧
    (i.access = none → t.regs = s.regs) ∧
    (∀ a n, i.access = some (a, n) → ∀ j, j < a ∨ a + n ≤ j → t.regs[j]? = s.regs[j]?)

/-- Every frame of at least 8 bytes with protocol id 0 completes, whatever the state, and is answered
with exactly one frame (R116, R120, R187). -/
def Obligations.EveryRequestIsAnswered : Prop :=
  ∀ (i : Instr) (s : State), ∃ t f, exec i s = .next t ∧ t.tx = some f ∧ 9 ≤ f.length

/-- R119 (with decision D23): a failed send is logged and changes nothing else: the registers, and the
frame that was handed over, are those of the run in which the send succeeds. -/
def Obligations.FailedSendRollsNothingBack : Prop :=
  ∀ (i : Instr) (s t : State), exec i { s with sendOk := true } = .next t →
    exec i { s with sendOk := false } =
      .next { t with sendOk := false, diag := t.diag ++ [.sendFailed] } ∧
    (DiagEvent.sendFailed ∉ s.diag → DiagEvent.sendFailed ∉ t.diag)

/-- R215: every request is idempotent: repeating it leaves the same registers and gets the same
response. -/
def Obligations.RequestsAreIdempotent : Prop :=
  ∀ (i : Instr) (s t u : State), s.regsWf → exec i s = .next t → exec i t = .next u →
    u.regs = t.regs ∧ u.tx = t.tx

/-- R141 (d): a `WMR` of one register has the same effect on the register file as the `WSR` of that
register and value. -/
def Obligations.OneRegisterWmrWritesLikeWsr : Prop :=
  ∀ (s : State) (g h : Header) (a : Word) (hi lo : Byte) (t u : State),
    g.mlen = 9 → h.mlen = 6 →
    exec (.wmr g (.fields a 1 2 [hi, lo])) s = .next t →
    exec (.wsr h (.fields a (be16 hi lo))) s = .next u →
    t.regs = u.regs

/-- R114, R116, R189 (with decision D10): transaction id and unit id are only echoed. Two requests that
differ in them alone leave the same registers, and their responses differ in bytes 0, 1 and 6 alone. -/
def Obligations.IdsAreOnlyEchoed : Prop :=
  ∀ (b₁ b₂ : List Byte) (i j : Instr) (s t u : State),
    decode b₁ = .instr i → decode b₂ = .instr j →
    (b₁.drop 2).take 4 = (b₂.drop 2).take 4 → b₁.drop 7 = b₂.drop 7 →
    exec i s = .next t → exec j s = .next u →
    t.regs = u.regs ∧
    ∀ f₁ f₂, t.tx = some f₁ → u.tx = some f₂ →
      (f₁.drop 2).take 4 = (f₂.drop 2).take 4 ∧ f₁.drop 7 = f₂.drop 7 ∧
      f₁.take 2 = b₁.take 2 ∧ f₁[6]? = b₁[6]? ∧ f₂.take 2 = b₂.take 2 ∧ f₂[6]? = b₂[6]?

/-! ## The service cycle -/

/-- R111: with more than RX_MAX bytes pending all of them are lost, nothing is received, no response is
sent and no register changes; otherwise all of them are received. -/
def Obligations.OversizeInputIsDiscardedWhole : Prop :=
  ∀ (s : State) (pending : List Byte) (ok : Bool) (rest : List Move), s.params.ok = true →
    s.script = .service pending ok :: rest →
    (s.params.rxMax < pending.length →
      ∃ t, step s = .next t ∧ t.rx = [] ∧ t.tx = none ∧ t.regs = s.regs ∧ t.script = rest) ∧
    (pending.length ≤ s.params.rxMax →
      ∃ t, step s = .next t ∧ t.rx = pending ∧ t.script = rest)

/-- R112: with nothing received (a client that is not connected, nothing available, or the oversize
drop) the service cycle does nothing: no response, no register change, no diagnostic event. The model's
choices in it: that the oversize drop of R111 emits no event follows R112 over decision D17 (log 5); a
client that is gone but not yet detected delivers nothing (R185, R193, log 9); with no move left in
`script` a step is a cycle that receives nothing (log 1). -/
def Obligations.NothingReceivedHasNoEffect : Prop :=
  ∀ (s : State) (pending : List Byte) (ok : Bool) (rest : List Move), s.params.ok = true →
    ((s.script = .service pending ok :: rest ∧
        (pending = [] ∨ s.params.rxMax < pending.length)) ∨
      (s.script = .session pending ok :: rest ∧
        (s.agents.conn ≠ .connected ∨ s.agents.peerGone = true)) ∨
      s.script = []) →
    ∃ t, step s = .next t ∧ t.rx = [] ∧ t.tx = none ∧ t.regs = s.regs ∧ t.diag = []

/-- R110 with R182: one service cycle, for every byte sequence, leaves the registers and hands over the
response that the rule's own procedure gives, checks in its order, written over byte indices without
decoder or encoder (`serviceSpec`). -/
def Obligations.ServiceCycleFollowsTheProcedure : Prop :=
  ∀ (s : State) (pending : List Byte) (ok : Bool) (rest : List Move), s.params.ok = true →
    s.regsWf → s.script = .service pending ok :: rest →
    ∃ t, step s = .next t ∧
      (t.regs, t.tx) = serviceSpec s.params.n s.params.rxMax s.regs pending ∧ t.sendOk = ok

/-- R120: a service cycle sends nothing exactly when the input is oversize, empty, a runt, or of another
protocol. -/
def Obligations.SilentExactlyOnDrops : Prop :=
  ∀ (s t : State) (pending : List Byte) (ok : Bool) (rest : List Move),
    s.script = .service pending ok :: rest → step s = .next t →
    (t.tx = none ↔ s.params.rxMax < pending.length ∨ pending.length < 8 ∨
      ¬ (pending[2]? = some 0 ∧ pending[3]? = some 0))

/-- R31, R171: the response and the registers after a service cycle depend on the bytes received, the
register file and the parameters, and on nothing else: two states that agree on these may differ in
every buffer, in the agents, in what was sent before, and in the answer to the send. -/
def Obligations.NoStateLeaksIntoResponses : Prop :=
  ∀ (s t s' t' : State) (pending : List Byte) (ok ok' : Bool) (rest rest' : List Move),
    s.params = t.params → s.regs = t.regs →
    s.script = .service pending ok :: rest → t.script = .service pending ok' :: rest' →
    step s = .next s' → step t = .next t' → s'.tx = t'.tx ∧ s'.regs = t'.regs

/-- R186: a request that was dropped or answered with an exception has no influence on the next one: the
cycle after it ends with the registers and the response it would have had without it. -/
def Obligations.FailedRequestLeavesNoTrace : Prop :=
  ∀ (s t t' u : State) (p q : List Byte) (ok ok' : Bool) (rest : List Move),
    s.script = .service p ok :: .service q ok' :: rest →
    step s = .next t →
    (∀ f fc, t.tx = some f → f[7]? = some fc → 0x80 ≤ fc.toNat) →
    step t = .next t' →
    step { s with script := .service q ok' :: rest } = .next u →
    t'.regs = u.regs ∧ t'.tx = u.tx

/-- R118 (a), (b): the leading piece of a cut frame, and frames run together, are judged as one byte
sequence. Of a well-sized request, a leading piece of fewer than 8 bytes is dropped and a longer leading
piece answers `IllegalDataValue`; a well-sized request followed by any more bytes answers
`IllegalDataValue` with its own ids; no register changes. (The trailing piece:
`TrailingPieceIsJudgedOnItsOwn`.) -/
def Obligations.SplitAndJoinedFramesExecuteNothing : Prop :=
  ∀ (s : State) (i : Instr) (ok : Bool) (rest : List Move), s.params.ok = true →
    i.wellSized = true →
    (∀ k, k < (encode i).length → s.script = .service ((encode i).take k) ok :: rest →
      ∃ t, step s = .next t ∧ t.regs = s.regs ∧ (k < 8 → t.tx = none) ∧
        (8 ≤ k → k ≤ s.params.rxMax →
          t.tx = some (exceptionBytes i.header i.functionCode 3))) ∧
    (∀ more, more ≠ [] → (encode i ++ more).length ≤ s.params.rxMax →
      s.script = .service (encode i ++ more) ok :: rest →
      ∃ t, step s = .next t ∧ t.regs = s.regs ∧
        t.tx = some (exceptionBytes i.header i.functionCode 3))

/-- R58 on the wire (S1): a multi-register write followed in the next service cycle by a read of the
same range is answered with exactly the data bytes that were sent. -/
def Obligations.WireWriteThenReadReturnsTheData : Prop :=
  ∀ (s t u : State) (g h : Header) (a n : Word) (k : Byte) (data : List Byte) (ok ok' : Bool)
    (rest : List Move), s.regsWf →
    g.mlen.toNat = 7 + data.length → k.toNat = 2 * n.toNat → data.length = k.toNat → h.mlen = 6 →
    a.toNat + n.toNat ≤ s.params.n → 13 + data.length ≤ s.params.rxMax →
    s.script = .service (encode (.wmr g (.fields a n k data))) ok ::
      .service (encode (.rhr h (.fields a n))) ok' :: rest →
    step s = .next t → step t = .next u →
    ∃ f, u.tx = some f ∧ f.length = 9 + data.length ∧ f.drop 9 = data

/-- A whole-machine rule: a register other than `LED_STATE` and `COUNTER` changes only by a reset, an
in-range local write that covers it, or a service cycle whose bytes are a well-sized in-range write
request that covers it (R21, R26, R27, R191, R192, R217). -/
def Obligations.OnlyWritesAndResetChangeRegisters : Prop :=
  ∀ (s t : State) (m : Move) (rest : List Move) (j : Nat), s.Inv → s.script = m :: rest →
    step s = .next t → j ≠ 2 → j ≠ 3 → t.regs[j]? ≠ s.regs[j]? →
    m = .reset ∨
    (∃ a n vs, m = .localWrite a n vs ∧ a.toNat ≤ j ∧ j < a.toNat + n.toNat ∧
      a.toNat + n.toNat ≤ s.params.n) ∨
    (∃ b i a n, m.received s.agents = some b ∧ b.length ≤ s.params.rxMax ∧ decode b = .instr i ∧
      i.stores = true ∧ i.wellSized = true ∧ i.access = some (a, n) ∧ a ≤ j ∧ j < a + n ∧
      a + n ≤ s.params.n)

/-! ## The documented agents -/

/-- R191: the counter agent. With `now >= lastFire + 1000` it adds one to register 3 modulo 2^16 and
moves `lastFire` on by 1000 (one increment a tick; for the other value of the parameter of log 7 see
`CounterAgentCatchesUpEveryPeriod`); otherwise it does nothing. From 65535 it wraps to 0. -/
def Obligations.CounterAgentAddsOneEverySecond : Prop :=
  ∀ (s : State) (v : Word) (now : Nat), 4 ≤ s.params.n → s.params.counterCatchUp = false →
    s.regs[3]? = some v →
    (s.agents.lastFire + 1000 ≤ now → ∃ w, w.toNat = (v.toNat + 1) % 65536 ∧
      counterTick now s = { s with
        regs := s.regs.set 3 w
        agents := { s.agents with lastFire := s.agents.lastFire + 1000 } }) ∧
    (now < s.agents.lastFire + 1000 → counterTick now s = s)

/-- R192 (with decision D22): the LED agent. Off, and every value that is no mode, drives the output
low; On drives it high; Blink toggles it when the deadline has come and sets the next deadline, and does
so before the deadline only for an interval of 0 under the parameter of log 19. Register 2 is written with the level when the output changes, on every tick under `LED_MIRROR_ALWAYS`, and
otherwise not at all. -/
def Obligations.LedAgentFollowsTheModeRegister : Prop :=
  ∀ (s t : State) (mode ms : Word) (now : Nat), 4 ≤ s.params.n →
    s.regs[0]? = some mode → s.regs[1]? = some ms → ledTick now s = t →
    (mode ≠ 2 → mode ≠ 3 → t.agents.ledOut = .low ∧ t.agents.deadline = s.agents.deadline) ∧
    (mode = 2 → t.agents.ledOut = .high ∧ t.agents.deadline = s.agents.deadline) ∧
    (mode = 3 → s.agents.deadline ≤ now ∨ (ms = 0 ∧ s.params.blinkZeroAtOnce = true) →
      t.agents.ledOut ≠ s.agents.ledOut ∧ t.agents.deadline = now + ms.toNat) ∧
    (mode = 3 → now < s.agents.deadline → ms ≠ 0 ∨ s.params.blinkZeroAtOnce = false →
      t.agents.ledOut = s.agents.ledOut ∧ t.agents.deadline = s.agents.deadline) ∧
    (t.agents.ledOut ≠ s.agents.ledOut ∨ s.params.ledMirrorAlways = true →
      t.regs = s.regs.set 2 (if t.agents.ledOut = .high then 1 else 0)) ∧
    (t.agents.ledOut = s.agents.ledOut → s.params.ledMirrorAlways = false → t.regs = s.regs) ∧
    t = { s with regs := t.regs, agents := { s.agents with
      ledOut := t.agents.ledOut, deadline := t.agents.deadline } }

/-- R211, R192: after reset the first LED tick toggles the output to high and writes 1 to register 2,
whatever the clock says; it sets the deadline to `now + 250`. -/
def Obligations.FirstLedTickAfterResetTurnsTheLedOn : Prop :=
  ∀ now : Nat, (ledTick now State.reset).agents.ledOut = .high ∧
    (ledTick now State.reset).regs = [3, 250, 1, 0, 0, 0, 0, 0, 0, 0] ∧
    (ledTick now State.reset).agents.deadline = now + 250

/-- R190, R61: one iteration of the Tick Loop is the service cycle, then the counter, then the LED, in
that order: it ends with the registers and the agents of the three single steps. -/
def Obligations.TickRunsServiceCounterLed : Prop :=
  ∀ (s t : State) (pending : List Byte) (ok : Bool) (now : Nat) (rest : List Move),
    s.script = .tick pending ok now :: rest → step s = .next t →
    ∃ a b c, step { s with
        script := [.session pending ok, .counter now, .led now] ++ rest } = .next a ∧
      step a = .next b ∧ step b = .next c ∧
      t.regs = c.regs ∧ t.agents = c.agents ∧ t.script = c.script ∧ t.tx = a.tx ∧ t.diag = a.diag

/-- R193: at most one client. A client that is there is kept by accept; otherwise accept ends in Connected
if a client is waiting, else in Disconnected. The peer's closing shows at first nowhere (log 9). A lost
connection is seen by accept and by receive: a session cycle without a live client receives nothing,
sends nothing and ends in Disconnected, and so does the cycle inside a tick; with a live client it leaves
the manager as it is. -/
def Obligations.AcceptKeepsALiveClient : Prop :=
  ∀ (s : State) (rest : List Move), s.params.ok = true →
    (∀ success : Bool, s.script = .accept success :: rest →
      (s.agents.conn = .connected → s.agents.peerGone = false →
        step s = .next { s with script := rest, tx := none, diag := [], loc := none }) ∧
      (s.agents.conn ≠ .connected ∨ s.agents.peerGone = true →
        step s = .next { s with
          script := rest, tx := none, diag := [], loc := none
          agents := { s.agents with
            conn := if success then .connected else .disconnected, peerGone := false } })) ∧
    (s.script = .peerClose :: rest → s.agents.conn = .connected → s.agents.peerGone = false →
      step s = .next { s with
        script := rest, tx := none, diag := [], loc := none
        agents := { s.agents with peerGone := true } }) ∧
    (∀ (pending : List Byte) (ok : Bool), s.script = .session pending ok :: rest →
      (s.agents.conn ≠ .connected ∨ s.agents.peerGone = true →
        step s = .next { s with
          script := rest, rx := [], sendOk := false, tx := none, diag := [], loc := none
          agents := { s.agents with conn := .disconnected, peerGone := false } }) ∧
      (s.agents.conn = .connected → s.agents.peerGone = false →
        ∃ t, step s = .next t ∧ t.agents = s.agents)) ∧
    (∀ (pending : List Byte) (ok : Bool) (now : Nat), s.script = .tick pending ok now :: rest →
      s.agents.conn ≠ .connected ∨ s.agents.peerGone = true →
      ∃ t, step s = .next t ∧ t.tx = none ∧ t.agents.conn = .disconnected ∧
        t.agents.peerGone = false)

/-- R193, R28, S8: losing the client and accepting another one changes no register, and the new client's
first request is answered from the register file as any request is. -/
def Obligations.ReconnectingKeepsTheRegisters : Prop :=
  ∀ (s a b c d : State) (pending : List Byte) (ok : Bool) (rest : List Move),
    s.script = .peerClose :: .accept true :: .session pending ok :: rest →
    step s = .next a → step a = .next b → step b = .next c →
    step { s with script := .service pending ok :: rest } = .next d →
    b.regs = s.regs ∧ b.agents.conn = .connected ∧ c.regs = d.regs ∧ c.tx = d.tx

/-! ## Added after the review -/

/-- R191 under the parameter of log 7 (catching up is the model's parameter: the spec leaves open whether
several overdue increments are made in one tick, 91 N14): the tick adds to register 3, modulo 2^16, the
number `k` of whole periods of 1000 ms that have passed since `lastFire`, moves `lastFire` on by as many,
and so leaves no increment due; before the first period has passed nothing changes. -/
def Obligations.CounterAgentCatchesUpEveryPeriod : Prop :=
  ∀ (s : State) (v : Word) (now : Nat), 4 ≤ s.params.n → s.params.counterCatchUp = true →
    s.regs[3]? = some v →
    (s.agents.lastFire + 1000 ≤ now → ∃ (k : Nat) (w : Word),
      s.agents.lastFire + 1000 * k ≤ now ∧ now < s.agents.lastFire + 1000 * k + 1000 ∧
      w.toNat = (v.toNat + k) % 65536 ∧
      counterTick now s = { s with
        regs := s.regs.set 3 w
        agents := { s.agents with lastFire := s.agents.lastFire + 1000 * k } }) ∧
    (now < s.agents.lastFire + 1000 → counterTick now s = s)

/-- R118 (a): the trailing piece of a cut frame is judged on its own, as the bytes it consists of. Fewer
than 8 bytes, or bytes of another protocol, are dropped; an unsupported function code answers
`IllegalFunction`; a piece whose sizes disagree with its bytes answers `IllegalDataValue` with the ids
those bytes spell; none of these changes a register. A trailing piece of an `RHR` or a `WSR` is always
one of these, so nothing of such a request is executed. -/
def Obligations.TrailingPieceIsJudgedOnItsOwn : Prop :=
  ∀ (s : State) (i : Instr) (k : Nat) (ok : Bool) (rest : List Move), s.params.ok = true →
    i.wellSized = true → 0 < k → k < (encode i).length →
    (encode i).length ≤ k + s.params.rxMax →
    s.script = .service ((encode i).drop k) ok :: rest →
    ∃ t, step s = .next t ∧
      ((encode i).length < k + 8 → t.tx = none ∧ t.regs = s.regs) ∧
      (∀ r, decode ((encode i).drop k) = .rejected r → t.tx = none ∧ t.regs = s.regs) ∧
      (∀ j, decode ((encode i).drop k) = .instr j →
        (j.supported = false →
          t.tx = some (exceptionBytes j.header j.functionCode 1) ∧ t.regs = s.regs) ∧
        (j.supported = true → j.wellSized = false →
          t.tx = some (exceptionBytes j.header j.functionCode 3) ∧ t.regs = s.regs)) ∧
      (i.functionCode ≠ 0x10 → t.regs = s.regs ∧ ∀ f, t.tx = some f →
        ∃ j code, decode ((encode i).drop k) = .instr j ∧ (code = 1 ∨ code = 3) ∧
          f = exceptionBytes j.header j.functionCode code)
end

