-- ==== Sys2Proof/Laws/Decode.lean ====
section
/-! SUPPORT. Field assembly (R8, R11) and the shape of what the decoder answers. -/

namespace Sys2Proof

/-- The bits of an assembled field (R8, R50): the second byte below, the first above. -/
theorem be16_getLsbD (hi lo : Byte) (i : Nat) :
    (be16 hi lo).getLsbD i = if i < 8 then lo.getLsbD i else hi.getLsbD (i - 8) :=
  BitVec.getLsbD_append (x := hi) (y := lo) (i := i)

/-- `be16` and `bytes16` are inverse (R11): from a word. -/
theorem be16_bytes16 (v : Word) : be16 (v.extractLsb' 8 8) (v.extractLsb' 0 8) = v := by
  apply BitVec.eq_of_getLsbD_eq
  intro i hi
  by_cases h8 : i < 8
  · simp [be16_getLsbD, h8]
  · have h1 : i - 8 < 8 := by omega
    have h2 : 8 + (i - 8) = i := by omega
    simp [be16_getLsbD, h8, h1, h2]

/-- `be16` and `bytes16` are inverse (R11): the high byte. -/
theorem high_be16 (hi lo : Byte) : (be16 hi lo).extractLsb' 8 8 = hi := by
  apply BitVec.eq_of_getLsbD_eq
  intro i hlt
  simp [be16_getLsbD, hlt]

/-- `be16` and `bytes16` are inverse (R11): the low byte. -/
theorem low_be16 (hi lo : Byte) : (be16 hi lo).extractLsb' 0 8 = lo := by
  apply BitVec.eq_of_getLsbD_eq
  intro i hlt
  simp [be16_getLsbD, hlt]

/-- The value of an assembled field (R8, R50). -/
theorem be16_toNat (hi lo : Byte) : (be16 hi lo).toNat = 256 * hi.toNat + lo.toNat := by
  have h : (be16 hi lo).toNat = hi.toNat <<< 8 ||| lo.toNat := BitVec.toNat_append hi lo
  rw [h, ← Nat.shiftLeft_add_eq_or_of_lt lo.isLt, Nat.shiftLeft_eq]
  omega

/-- The two bytes of an assembled field are the two bytes it came from (R11). -/
theorem bytes16_be16 (hi lo : Byte) : bytes16 (be16 hi lo) = [hi, lo] := by
  simp only [bytes16, high_be16, low_be16]

theorem bytes16_length (v : Word) : (bytes16 v).length = 2 := rfl

theorem encodeHeader_length (h : Header) : (encodeHeader h).length = 7 := rfl

theorem flatMap_bytes16_length (vs : List Word) : (vs.flatMap bytes16).length = 2 * vs.length := by
  induction vs with
  | nil => rfl
  | cons v vs ih => simp [List.flatMap_cons, bytes16_length, ih]; omega

/-- Three ways a frame of at least eight bytes can go (R114 to R116). -/
theorem decode_frame (t0 t1 p0 p1 l0 l1 u fc : Byte) (rest : List Byte) :
    decode (t0 :: t1 :: p0 :: p1 :: l0 :: l1 :: u :: fc :: rest) =
      if be16 p0 p1 = protocolId then .instr (decodeFunction ⟨be16 t0 t1, be16 l0 l1, u⟩ fc rest)
      else .rejected .badProtocol := rfl

/-- A frame of fewer than eight bytes holds no instruction (R112, R113). -/
theorem decode_short (b : List Byte) (h : b.length < 8) :
    decode b = .rejected (if b = [] then .empty else .runt) := by
  match b, h with
  | [], _ => rfl
  | [_], _ => rfl
  | [_, _], _ => rfl
  | [_, _, _], _ => rfl
  | [_, _, _, _], _ => rfl
  | [_, _, _, _, _], _ => rfl
  | [_, _, _, _, _, _], _ => rfl
  | [_, _, _, _, _, _, _], _ => rfl

/-- A frame of eight bytes or more has its eight first bytes. -/
theorem exists_eight (b : List Byte) (h : 8 ≤ b.length) :
    ∃ t0 t1 p0 p1 l0 l1 u fc rest, b = t0 :: t1 :: p0 :: p1 :: l0 :: l1 :: u :: fc :: rest := by
  match b, h with
  | t0 :: t1 :: p0 :: p1 :: l0 :: l1 :: u :: fc :: rest, _ =>
    exact ⟨t0, t1, p0, p1, l0, l1, u, fc, rest, rfl⟩

/-- What the decoder makes of the operand bytes never depends on a declared length (R94): its size is
the number of bytes there are. -/
theorem decodeRead_size (b : List Byte) : (decodeRead b).size = b.length := by
  unfold decodeRead; split <;> simp [ReadPdu.size]

theorem decodeWriteSingle_size (b : List Byte) : (decodeWriteSingle b).size = b.length := by
  unfold decodeWriteSingle; split <;> simp [WriteSinglePdu.size]

theorem decodeWriteMultiple_size (b : List Byte) : (decodeWriteMultiple b).size = b.length := by
  unfold decodeWriteMultiple; split <;> simp [WriteMultiplePdu.size]; omega

theorem decodeFunction_size (h : Header) (fc : Byte) (rest : List Byte) :
    (decodeFunction h fc rest).size = 8 + rest.length := by
  unfold decodeFunction
  split_ifs <;>
    simp [Instr.size, decodeRead_size, decodeWriteSingle_size, decodeWriteMultiple_size]

theorem decodeFunction_header (h : Header) (fc : Byte) (rest : List Byte) :
    (decodeFunction h fc rest).header = h := by
  unfold decodeFunction; split_ifs <;> rfl

/-- The protocol id is 0 exactly when its two bytes are (R115). -/
theorem be16_eq_protocolId (p0 p1 : Byte) : be16 p0 p1 = protocolId ↔ p0 = 0 ∧ p1 = 0 := by
  constructor
  · intro h
    have hb := bytes16_be16 p0 p1
    rw [h, show bytes16 protocolId = [0, 0] from by decide] at hb
    simp only [List.cons.injEq] at hb
    exact ⟨hb.1.symm, hb.2.1.symm⟩
  · rintro ⟨rfl, rfl⟩; decide

/-- The three supported function codes (R91). -/
theorem decodeFunction_read (h : Header) (rest : List Byte) :
    decodeFunction h fcRead rest = .rhr h (decodeRead rest) := rfl

theorem decodeFunction_writeSingle (h : Header) (rest : List Byte) :
    decodeFunction h fcWriteSingle rest = .wsr h (decodeWriteSingle rest) := rfl

theorem decodeFunction_writeMultiple (h : Header) (rest : List Byte) :
    decodeFunction h fcWriteMultiple rest = .wmr h (decodeWriteMultiple rest) := rfl

/-- Every other function code (R91, R92). -/
theorem decodeFunction_other (h : Header) (fc : Byte) (rest : List Byte) (h3 : fc ≠ fcRead)
    (h6 : fc ≠ fcWriteSingle) (h16 : fc ≠ fcWriteMultiple) :
    decodeFunction h fc rest = .illegal h fc rest := by
  rw [decodeFunction, if_neg h3, if_neg h6, if_neg h16]

theorem decodeRead_badSize (rest : List Byte) (h : rest.length ≠ 4) :
    decodeRead rest = .badSize rest := by
  unfold decodeRead
  split
  · exact absurd rfl h
  · rfl

theorem decodeWriteSingle_badSize (rest : List Byte) (h : rest.length ≠ 4) :
    decodeWriteSingle rest = .badSize rest := by
  unfold decodeWriteSingle
  split
  · exact absurd rfl h
  · rfl

theorem decodeWriteMultiple_short (rest : List Byte) (h : rest.length < 5) :
    decodeWriteMultiple rest = .short rest := by
  unfold decodeWriteMultiple
  split
  · simp only [List.length_cons] at h; omega
  · rfl

/-- An encoded header decodes to itself, and what follows the function code is left as it is (R81). -/
theorem decode_encodeHeader (h : Header) (fc : Byte) (rest : List Byte) :
    decode (encodeHeader h ++ fc :: rest) = .instr (decodeFunction h fc rest) := by
  change decode (_ :: _ :: _ :: _ :: _ :: _ :: _ :: _ :: _) = _
  rw [decode_frame, be16_bytes16, be16_bytes16, be16_bytes16]
  rfl

end Sys2Proof
end

