-- ==== Sys2Proof/Laws/State.lean ====
section
/-! SUPPORT. The small lemmas of State: one per field per update. -/

namespace Sys2Proof.Machine

variable (s : State)

/-! ## `emit` (R9) -/

@[simp] theorem emit_params (e : DiagEvent) : (emit e s).params = s.params := rfl
@[simp] theorem emit_regs (e : DiagEvent) : (emit e s).regs = s.regs := rfl
@[simp] theorem emit_rx (e : DiagEvent) : (emit e s).rx = s.rx := rfl
@[simp] theorem emit_sendOk (e : DiagEvent) : (emit e s).sendOk = s.sendOk := rfl
@[simp] theorem emit_tx (e : DiagEvent) : (emit e s).tx = s.tx := rfl
@[simp] theorem emit_loc (e : DiagEvent) : (emit e s).loc = s.loc := rfl
@[simp] theorem emit_agents (e : DiagEvent) : (emit e s).agents = s.agents := rfl
@[simp] theorem emit_diagDraws (e : DiagEvent) : (emit e s).diagDraws = s.diagDraws := rfl
@[simp] theorem emit_script (e : DiagEvent) : (emit e s).script = s.script := rfl

@[simp] theorem emit_diag (e : DiagEvent) : (emit e s).diag = s.diag ++ [e] := rfl

/-! ## `emitOpen` (92 D17) -/

@[simp] theorem emitOpen_params (o : OpenOutcome) : (emitOpen o s).params = s.params := rfl
@[simp] theorem emitOpen_regs (o : OpenOutcome) : (emitOpen o s).regs = s.regs := rfl
@[simp] theorem emitOpen_rx (o : OpenOutcome) : (emitOpen o s).rx = s.rx := rfl
@[simp] theorem emitOpen_sendOk (o : OpenOutcome) : (emitOpen o s).sendOk = s.sendOk := rfl
@[simp] theorem emitOpen_tx (o : OpenOutcome) : (emitOpen o s).tx = s.tx := rfl
@[simp] theorem emitOpen_loc (o : OpenOutcome) : (emitOpen o s).loc = s.loc := rfl
@[simp] theorem emitOpen_agents (o : OpenOutcome) : (emitOpen o s).agents = s.agents := rfl
@[simp] theorem emitOpen_script (o : OpenOutcome) : (emitOpen o s).script = s.script := rfl

@[simp] theorem emitOpen_diagDraws (o : OpenOutcome) :
    (emitOpen o s).diagDraws = s.diagDraws + 1 := rfl

/-! ## `exceptionDiag` (R184 (d)) -/

@[simp] theorem exceptionDiag_params (e : ModbusException) : (exceptionDiag e s).params = s.params := by cases e <;> rfl
@[simp] theorem exceptionDiag_regs (e : ModbusException) : (exceptionDiag e s).regs = s.regs := by cases e <;> rfl
@[simp] theorem exceptionDiag_rx (e : ModbusException) : (exceptionDiag e s).rx = s.rx := by cases e <;> rfl
@[simp] theorem exceptionDiag_sendOk (e : ModbusException) : (exceptionDiag e s).sendOk = s.sendOk := by cases e <;> rfl
@[simp] theorem exceptionDiag_tx (e : ModbusException) : (exceptionDiag e s).tx = s.tx := by cases e <;> rfl
@[simp] theorem exceptionDiag_loc (e : ModbusException) : (exceptionDiag e s).loc = s.loc := by cases e <;> rfl
@[simp] theorem exceptionDiag_agents (e : ModbusException) : (exceptionDiag e s).agents = s.agents := by cases e <;> rfl
@[simp] theorem exceptionDiag_script (e : ModbusException) : (exceptionDiag e s).script = s.script := by cases e <;> rfl

/-! ## `respond` (R119) -/

@[simp] theorem respond_params (f : List Byte) : (respond f s).params = s.params := by unfold respond; dsimp only; split <;> rfl
@[simp] theorem respond_regs (f : List Byte) : (respond f s).regs = s.regs := by unfold respond; dsimp only; split <;> rfl
@[simp] theorem respond_rx (f : List Byte) : (respond f s).rx = s.rx := by unfold respond; dsimp only; split <;> rfl
@[simp] theorem respond_sendOk (f : List Byte) : (respond f s).sendOk = s.sendOk := by unfold respond; dsimp only; split <;> rfl
@[simp] theorem respond_loc (f : List Byte) : (respond f s).loc = s.loc := by unfold respond; dsimp only; split <;> rfl
@[simp] theorem respond_agents (f : List Byte) : (respond f s).agents = s.agents := by unfold respond; dsimp only; split <;> rfl
@[simp] theorem respond_diagDraws (f : List Byte) : (respond f s).diagDraws = s.diagDraws := by unfold respond; dsimp only; split <;> rfl
@[simp] theorem respond_script (f : List Byte) : (respond f s).script = s.script := by unfold respond; dsimp only; split <;> rfl

@[simp] theorem respond_tx (f : List Byte) : (respond f s).tx = some f := by
  unfold respond; dsimp only; split <;> rfl

/-! ## `raise` (R184) -/

@[simp] theorem raise_params (e : ModbusException) (h : Header) (fc : Byte) : (raise e h fc s).params = s.params := by
 simp [raise]
@[simp] theorem raise_regs (e : ModbusException) (h : Header) (fc : Byte) : (raise e h fc s).regs = s.regs := by
 simp [raise]
@[simp] theorem raise_rx (e : ModbusException) (h : Header) (fc : Byte) : (raise e h fc s).rx = s.rx := by
 simp [raise]
@[simp] theorem raise_sendOk (e : ModbusException) (h : Header) (fc : Byte) : (raise e h fc s).sendOk = s.sendOk := by
 simp [raise]
@[simp] theorem raise_loc (e : ModbusException) (h : Header) (fc : Byte) : (raise e h fc s).loc = s.loc := by
 simp [raise]
@[simp] theorem raise_agents (e : ModbusException) (h : Header) (fc : Byte) : (raise e h fc s).agents = s.agents := by
 simp [raise]
@[simp] theorem raise_script (e : ModbusException) (h : Header) (fc : Byte) : (raise e h fc s).script = s.script := by
 simp [raise]

@[simp] theorem raise_tx (e : ModbusException) (h : Header) (fc : Byte) :
    (raise e h fc s).tx = some (encodeException h.tid h.uid fc e) := by
  simp [raise]

/-! ## `openPorts` (R31) -/

@[simp] theorem openPorts_params : (openPorts s).params = s.params := rfl
@[simp] theorem openPorts_regs : (openPorts s).regs = s.regs := rfl
@[simp] theorem openPorts_rx : (openPorts s).rx = s.rx := rfl
@[simp] theorem openPorts_sendOk : (openPorts s).sendOk = s.sendOk := rfl
@[simp] theorem openPorts_agents : (openPorts s).agents = s.agents := rfl
@[simp] theorem openPorts_diagDraws : (openPorts s).diagDraws = s.diagDraws := rfl
@[simp] theorem openPorts_script : (openPorts s).script = s.script := rfl

@[simp] theorem openPorts_tx : (openPorts s).tx = none := rfl
@[simp] theorem openPorts_diag : (openPorts s).diag = [] := rfl
@[simp] theorem openPorts_loc : (openPorts s).loc = none := rfl

/-! ## `receive` (R111) -/

@[simp] theorem receive_params (p : List Byte) (k : Bool) : (receive p k s).params = s.params := rfl
@[simp] theorem receive_regs (p : List Byte) (k : Bool) : (receive p k s).regs = s.regs := rfl
@[simp] theorem receive_tx (p : List Byte) (k : Bool) : (receive p k s).tx = s.tx := rfl
@[simp] theorem receive_diag (p : List Byte) (k : Bool) : (receive p k s).diag = s.diag := rfl
@[simp] theorem receive_loc (p : List Byte) (k : Bool) : (receive p k s).loc = s.loc := rfl
@[simp] theorem receive_agents (p : List Byte) (k : Bool) : (receive p k s).agents = s.agents := rfl
@[simp] theorem receive_diagDraws (p : List Byte) (k : Bool) : (receive p k s).diagDraws = s.diagDraws := rfl
@[simp] theorem receive_script (p : List Byte) (k : Bool) : (receive p k s).script = s.script := rfl

@[simp] theorem receive_sendOk (p : List Byte) (k : Bool) : (receive p k s).sendOk = k := rfl

/-! ## `dropFrame` (R112, R113, R115) -/

@[simp] theorem dropFrame_params (r : Reject) : (dropFrame r s).params = s.params := by cases r <;> rfl
@[simp] theorem dropFrame_regs (r : Reject) : (dropFrame r s).regs = s.regs := by cases r <;> rfl
@[simp] theorem dropFrame_rx (r : Reject) : (dropFrame r s).rx = s.rx := by cases r <;> rfl
@[simp] theorem dropFrame_sendOk (r : Reject) : (dropFrame r s).sendOk = s.sendOk := by cases r <;> rfl
@[simp] theorem dropFrame_tx (r : Reject) : (dropFrame r s).tx = s.tx := by cases r <;> rfl
@[simp] theorem dropFrame_loc (r : Reject) : (dropFrame r s).loc = s.loc := by cases r <;> rfl
@[simp] theorem dropFrame_agents (r : Reject) : (dropFrame r s).agents = s.agents := by cases r <;> rfl
@[simp] theorem dropFrame_script (r : Reject) : (dropFrame r s).script = s.script := by cases r <;> rfl

/-! ## `localRead` (R34) -/

@[simp] theorem localRead_params (a n : Word) : (localRead a n s).params = s.params := by unfold localRead; split <;> rfl
@[simp] theorem localRead_regs (a n : Word) : (localRead a n s).regs = s.regs := by unfold localRead; split <;> rfl
@[simp] theorem localRead_rx (a n : Word) : (localRead a n s).rx = s.rx := by unfold localRead; split <;> rfl
@[simp] theorem localRead_sendOk (a n : Word) : (localRead a n s).sendOk = s.sendOk := by unfold localRead; split <;> rfl
@[simp] theorem localRead_tx (a n : Word) : (localRead a n s).tx = s.tx := by unfold localRead; split <;> rfl
@[simp] theorem localRead_diag (a n : Word) : (localRead a n s).diag = s.diag := by unfold localRead; split <;> rfl
@[simp] theorem localRead_agents (a n : Word) : (localRead a n s).agents = s.agents := by unfold localRead; split <;> rfl
@[simp] theorem localRead_diagDraws (a n : Word) : (localRead a n s).diagDraws = s.diagDraws := by unfold localRead; split <;> rfl
@[simp] theorem localRead_script (a n : Word) : (localRead a n s).script = s.script := by unfold localRead; split <;> rfl

/-! ## `detectLoss` (R193) -/

@[simp] theorem detectLoss_params : (detectLoss s).params = s.params := by unfold detectLoss; split <;> rfl
@[simp] theorem detectLoss_regs : (detectLoss s).regs = s.regs := by unfold detectLoss; split <;> rfl
@[simp] theorem detectLoss_rx : (detectLoss s).rx = s.rx := by unfold detectLoss; split <;> rfl
@[simp] theorem detectLoss_sendOk : (detectLoss s).sendOk = s.sendOk := by unfold detectLoss; split <;> rfl
@[simp] theorem detectLoss_tx : (detectLoss s).tx = s.tx := by unfold detectLoss; split <;> rfl
@[simp] theorem detectLoss_diag : (detectLoss s).diag = s.diag := by unfold detectLoss; split <;> rfl
@[simp] theorem detectLoss_loc : (detectLoss s).loc = s.loc := by unfold detectLoss; split <;> rfl
@[simp] theorem detectLoss_diagDraws : (detectLoss s).diagDraws = s.diagDraws := by unfold detectLoss; split <;> rfl
@[simp] theorem detectLoss_script : (detectLoss s).script = s.script := by unfold detectLoss; split <;> rfl

/-! ## `peerClose` (R193) -/

@[simp] theorem peerClose_params : (peerClose s).params = s.params := by unfold peerClose; split <;> rfl
@[simp] theorem peerClose_regs : (peerClose s).regs = s.regs := by unfold peerClose; split <;> rfl
@[simp] theorem peerClose_rx : (peerClose s).rx = s.rx := by unfold peerClose; split <;> rfl
@[simp] theorem peerClose_sendOk : (peerClose s).sendOk = s.sendOk := by unfold peerClose; split <;> rfl
@[simp] theorem peerClose_tx : (peerClose s).tx = s.tx := by unfold peerClose; split <;> rfl
@[simp] theorem peerClose_diag : (peerClose s).diag = s.diag := by unfold peerClose; split <;> rfl
@[simp] theorem peerClose_loc : (peerClose s).loc = s.loc := by unfold peerClose; split <;> rfl
@[simp] theorem peerClose_diagDraws : (peerClose s).diagDraws = s.diagDraws := by unfold peerClose; split <;> rfl
@[simp] theorem peerClose_script : (peerClose s).script = s.script := by unfold peerClose; split <;> rfl

/-! ## `acceptIfNeeded` (R193) -/

@[simp] theorem acceptIfNeeded_params (b : Bool) : (acceptIfNeeded b s).params = s.params := by
 unfold acceptIfNeeded; dsimp only; split <;> simp
@[simp] theorem acceptIfNeeded_regs (b : Bool) : (acceptIfNeeded b s).regs = s.regs := by
 unfold acceptIfNeeded; dsimp only; split <;> simp
@[simp] theorem acceptIfNeeded_rx (b : Bool) : (acceptIfNeeded b s).rx = s.rx := by
 unfold acceptIfNeeded; dsimp only; split <;> simp
@[simp] theorem acceptIfNeeded_sendOk (b : Bool) : (acceptIfNeeded b s).sendOk = s.sendOk := by
 unfold acceptIfNeeded; dsimp only; split <;> simp
@[simp] theorem acceptIfNeeded_tx (b : Bool) : (acceptIfNeeded b s).tx = s.tx := by
 unfold acceptIfNeeded; dsimp only; split <;> simp
@[simp] theorem acceptIfNeeded_diag (b : Bool) : (acceptIfNeeded b s).diag = s.diag := by
 unfold acceptIfNeeded; dsimp only; split <;> simp
@[simp] theorem acceptIfNeeded_loc (b : Bool) : (acceptIfNeeded b s).loc = s.loc := by
 unfold acceptIfNeeded; dsimp only; split <;> simp
@[simp] theorem acceptIfNeeded_diagDraws (b : Bool) : (acceptIfNeeded b s).diagDraws = s.diagDraws := by
 unfold acceptIfNeeded; dsimp only; split <;> simp
@[simp] theorem acceptIfNeeded_script (b : Bool) : (acceptIfNeeded b s).script = s.script := by
 unfold acceptIfNeeded; dsimp only; split <;> simp

/-! ## `resetMachine` (R210) -/

@[simp] theorem resetMachine_params : (resetMachine s).params = s.params := rfl
@[simp] theorem resetMachine_diagDraws : (resetMachine s).diagDraws = s.diagDraws := rfl
@[simp] theorem resetMachine_script : (resetMachine s).script = s.script := rfl

@[simp] theorem resetMachine_regs : (resetMachine s).regs = resetRegs s.params := rfl
@[simp] theorem resetMachine_agents : (resetMachine s).agents = resetAgents s.params := rfl
@[simp] theorem resetMachine_tx : (resetMachine s).tx = none := rfl
@[simp] theorem resetMachine_rx : (resetMachine s).rx = [] := rfl

end Sys2Proof.Machine
end

