-- ==== Sys2Proof/Laws/Ops.lean ====
section
/-! SUPPORT. One lemma per shared operation that says what it can do. -/

namespace Sys2Proof.Machine

/-! ## Comparisons (R11) -/

/-- The 17-bit sum of R54 is the sum of the two naturals: nothing wraps. -/
theorem sum17_toNat (a len : Word) :
    (a.setWidth 17 + len.setWidth 17).toNat = a.toNat + len.toNat := by
  have ha := a.isLt
  have hl := len.isLt
  simp only [BitVec.toNat_add, BitVec.toNat_setWidth]
  omega

theorem inRange_iff (n : Nat) (a len : Word) :
    inRange n a len = true ↔ a.toNat + len.toNat ≤ n := by
  simp only [inRange, sum17_toNat, decide_eq_true_eq]

theorem lengthAgrees_iff (mlen : Word) (size : Nat) :
    lengthAgrees mlen size = true ↔ mlen.toNat = size - 6 := by
  simp only [lengthAgrees, beq_iff_eq]

theorem byteCountAgrees_iff (k : Byte) (c : Word) :
    byteCountAgrees k c = true ↔ k.toNat = 2 * c.toNat := by
  simp only [byteCountAgrees, beq_iff_eq]

theorem dataLengthAgrees_iff (k : Byte) (d : List Byte) :
    dataLengthAgrees k d = true ↔ d.length = k.toNat := by
  simp only [dataLengthAgrees, beq_iff_eq]; omega

/-! ## Register slices (R51, R55, R56) -/

theorem readSlice_getElem? (regs : List Word) (a n i : Nat) :
    (readSlice regs a n)[i]? = if i < n then regs[a + i]? else none := by
  simp only [readSlice, List.getElem?_take, List.getElem?_drop]

theorem readSlice_length (regs : List Word) (a n : Nat) (h : a + n ≤ regs.length) :
    (readSlice regs a n).length = n := by
  simp only [readSlice, List.length_take, List.length_drop]; omega

theorem writeSlice_length (regs : List Word) (a : Nat) (vs : List Word) :
    (writeSlice regs a vs).length = regs.length := by
  fun_induction writeSlice regs a vs <;> simp_all

theorem writeSlice_getElem? (regs : List Word) (a : Nat) (vs : List Word) (i : Nat)
    (h : a + vs.length ≤ regs.length) :
    (writeSlice regs a vs)[i]? =
      if a ≤ i ∧ i < a + vs.length then vs[i - a]? else regs[i]? := by
  induction regs generalizing a vs i with
  | nil =>
    have hv : vs = [] := List.length_eq_zero_iff.mp (by
      have h0 : a + vs.length ≤ 0 := h
      omega)
    subst hv
    simp [writeSlice]
  | cons x regs ih =>
    cases vs with
    | nil =>
      have hn : ¬ (a ≤ i ∧ i < a) := by omega
      cases a <;> simp [writeSlice]
    | cons v vs =>
      cases a with
      | zero =>
        cases i with
        | zero => simp [writeSlice]
        | succ i =>
          simp only [writeSlice, List.getElem?_cons_succ]
          rw [ih 0 vs i (by simp at h ⊢; omega)]
          simp
      | succ a =>
        cases i with
        | zero => simp [writeSlice]
        | succ i =>
          simp only [writeSlice, List.getElem?_cons_succ]
          rw [ih a (v :: vs) i (by simp at h ⊢; omega)]
          have e : i + 1 - (a + 1) = i - a := by omega
          simp only [List.length_cons, e]
          by_cases hc : a ≤ i ∧ i < a + (vs.length + 1)
          · rw [if_pos hc, if_pos (by omega)]
          · rw [if_neg hc, if_neg (by omega)]

/-- Writing one value is writing one register. -/
theorem writeSlice_single (regs : List Word) (a : Nat) (v : Word) :
    writeSlice regs a [v] = regs.set a v := by
  induction regs generalizing a with
  | nil => cases a <;> simp [writeSlice]
  | cons x regs ih =>
    cases a with
    | zero => cases regs <;> simp [writeSlice]
    | succ a => simp [writeSlice, ih]

/-- A slice that was written reads back (R58). -/
theorem readSlice_writeSlice (regs : List Word) (a : Nat) (vs : List Word)
    (h : a + vs.length ≤ regs.length) : readSlice (writeSlice regs a vs) a vs.length = vs := by
  apply List.ext_getElem?
  intro i
  rw [readSlice_getElem?]
  by_cases hi : i < vs.length
  · rw [if_pos hi, writeSlice_getElem? regs a vs _ h, if_pos (by omega)]
    congr 1; omega
  · rw [if_neg hi, List.getElem?_eq_none (by omega)]

/-! ## The accessors -/

theorem memRead_cases (s : State) (a n : Word) :
    (a.toNat + n.toNat ≤ s.params.n ∧ memRead s a n = some (readSlice s.regs a.toNat n.toNat)) ∨
    (s.params.n < a.toNat + n.toNat ∧ memRead s a n = none) := by
  by_cases h : a.toNat + n.toNat ≤ s.params.n
  · exact .inl ⟨h, by rw [memRead, if_pos ((inRange_iff _ _ _).mpr h)]⟩
  · exact .inr ⟨by omega, by rw [memRead, if_neg (fun c => h ((inRange_iff _ _ _).mp c))]⟩

theorem memWrite_cases (s : State) (a n : Word) (vs : List Word) :
    (a.toNat + n.toNat ≤ s.params.n ∧
      memWrite s a n vs = some { s with regs := writeSlice s.regs a.toNat vs }) ∨
    (s.params.n < a.toNat + n.toNat ∧ memWrite s a n vs = none) := by
  by_cases h : a.toNat + n.toNat ≤ s.params.n
  · exact .inl ⟨h, by rw [memWrite, if_pos ((inRange_iff _ _ _).mpr h)]⟩
  · exact .inr ⟨by omega, by rw [memWrite, if_neg (fun c => h ((inRange_iff _ _ _).mp c))]⟩

/-- Every successful write keeps the register file's length (R20). -/
theorem memWrite_regsWf {s t : State} {a n : Word} {vs : List Word} (hs : s.regsWf)
    (h : memWrite s a n vs = some t) : t.regsWf := by
  rcases memWrite_cases s a n vs with ⟨_, e⟩ | ⟨_, e⟩
  · rw [e] at h
    cases h
    simpa only [State.regsWf, writeSlice_length] using hs
  · rw [e] at h; cases h

/-! ## Data words (R141) -/

theorem dataWords_length (d : List Byte) : (dataWords d).length = d.length / 2 := by
  fun_induction dataWords d with
  | case1 hi lo rest ih => simp [ih]; omega
  | case2 d h =>
    match d, h with
    | [], _ => rfl
    | [_], _ => simp
    | a :: b :: r, h => exact absurd rfl (h a b r)

theorem dataWords_getElem? (d : List Byte) (i : Nat) (hi lo : Byte)
    (h0 : d[2 * i]? = some hi) (h1 : d[2 * i + 1]? = some lo) :
    (dataWords d)[i]? = some (be16 hi lo) := by
  induction i generalizing d with
  | zero =>
    match d, h0, h1 with
    | a :: b :: r, h0, h1 => simp_all [dataWords]
  | succ i ih =>
    match d, h0, h1 with
    | [], h0, _ => simp at h0
    | [_], h0, _ => simp at h0
    | a :: b :: r, h0, h1 =>
      simp only [dataWords, List.getElem?_cons_succ]
      exact ih r (by simpa [Nat.mul_add] using h0) (by simpa [Nat.mul_add] using h1)

/-- The data of an encoded request reads back (R86, R141). -/
theorem dataWords_flatMap (vs : List Word) : dataWords (vs.flatMap bytes16) = vs := by
  induction vs with
  | nil => rfl
  | cons v vs ih =>
    have h : (v :: vs).flatMap bytes16
        = v.extractLsb' 8 8 :: v.extractLsb' 0 8 :: vs.flatMap bytes16 := rfl
    rw [h, dataWords, ih, be16_bytes16]

/-- The data bytes are the bytes of the data words (R86, R141). -/
theorem flatMap_dataWords (d : List Byte) (h : d.length % 2 = 0) :
    (dataWords d).flatMap bytes16 = d := by
  fun_induction dataWords d with
  | case1 hi lo rest ih =>
    have h' : rest.length % 2 = 0 := by simp at h; omega
    simp only [List.flatMap_cons, bytes16_be16, ih h', List.cons_append, List.nil_append]
  | case2 d hd =>
    match d, hd, h with
    | [], _, _ => rfl
    | [_], _, h => simp at h
    | a :: b :: r, hd, _ => exact absurd rfl (hd a b r)

/-! ## Send and exceptions -/

theorem respond_eq (f : List Byte) (s : State) :
    respond f s = { s with tx := some f, diag := s.diag ++ sendDiag s.sendOk } := by
  unfold respond sendDiag
  cases h : s.sendOk <;> simp [emit]

theorem responseHeader_eq (tid : Word) (uid : Byte) (k : Nat) (h : k < 255) :
    responseHeader tid uid k =
      [tid.extractLsb' 8 8, tid.extractLsb' 0 8, 0, 0, 0, BitVec.ofNat 8 (1 + k), uid] := by
  have h8 : (BitVec.ofNat 16 (1 + k)).extractLsb' 8 8 = 0#8 := by
    apply BitVec.eq_of_toNat_eq
    simp only [BitVec.extractLsb'_toNat, BitVec.toNat_ofNat, Nat.shiftRight_eq_div_pow]
    omega
  have h0 : (BitVec.ofNat 16 (1 + k)).extractLsb' 0 8 = BitVec.ofNat 8 (1 + k) := by
    apply BitVec.eq_of_toNat_eq
    simp only [BitVec.extractLsb'_toNat, BitVec.toNat_ofNat, Nat.shiftRight_eq_div_pow]
    omega
  simp only [responseHeader, bytes16, h8, h0]
  rfl

theorem encodeException_eq (h : Header) (fc : Byte) (e : ModbusException) :
    encodeException h.tid h.uid fc e = exceptionBytes h fc (exceptionCode e) := by
  simp [encodeException, responseHeader_eq, exceptionBytes, exceptionFunction]

theorem encodeReadResponse_length (tid : Word) (uid : Byte) (r : List Word) :
    (encodeReadResponse tid uid r).length = 9 + 2 * r.length := by
  simp only [encodeReadResponse, List.length_append, flatMap_bytes16_length]
  rfl

/-- What `raise` does to the parts of the state it touches (R184). -/
theorem raise_tx_eq (e : ModbusException) (h : Header) (fc : Byte) (s : State) :
    (raise e h fc s).tx = some (exceptionBytes h fc (exceptionCode e)) := by
  rw [raise_tx, encodeException_eq]

/-- Everything but the transmit and diagnostic ports is as before an exception (R184 (a), (b)). -/
theorem raise_frame (e : ModbusException) (h : Header) (fc : Byte) (s : State) :
    raise e h fc s = { s with
      tx := (raise e h fc s).tx
      diag := (raise e h fc s).diag
      diagDraws := (raise e h fc s).diagDraws } := by
  cases e <;> simp [raise, respond_eq, exceptionDiag, emit, emitOpen]

/-! ## What an instruction can do -/

/-- R180, R182: a frame is answered with the exception of the first check it fails, or executed. -/
theorem exec_cases (i : Instr) (s : State) :
    (i.supported = false ∧ exec i s = .next (raise .illegalFunction i.header i.functionCode s)) ∨
    (i.supported = true ∧ i.wellSized = false ∧
      exec i s = .next (raise .illegalDataValue i.header i.functionCode s)) ∨
    (i.wellSized = true ∧ (∃ a n, i.access = some (a, n) ∧ s.params.n < a + n) ∧
      exec i s = .next (raise .illegalDataAddress i.header i.functionCode s)) ∨
    (∃ h a n, i = .rhr h (.fields a n) ∧ h.mlen.toNat = 6 ∧ a.toNat + n.toNat ≤ s.params.n ∧
      exec i s = .next
        (respond (encodeReadResponse h.tid h.uid (readSlice s.regs a.toNat n.toNat)) s)) ∨
    (∃ h a v, i = .wsr h (.fields a v) ∧ h.mlen.toNat = 6 ∧ a.toNat + 1 ≤ s.params.n ∧
      exec i s = .next (respond (encodeWriteSingleResponse h.tid h.uid a v)
        { s with regs := s.regs.set a.toNat v })) ∨
    (∃ h a n k d, i = .wmr h (.fields a n k d) ∧ h.mlen.toNat = 7 + d.length ∧
      k.toNat = 2 * n.toNat ∧ d.length = k.toNat ∧ a.toNat + n.toNat ≤ s.params.n ∧
      exec i s = .next (respond (encodeWriteMultipleResponse h.tid h.uid a n)
        { s with regs := writeSlice s.regs a.toNat (dataWords d) })) := by
  cases i with
  | illegal h fc rest => exact .inl ⟨rfl, rfl⟩
  | rhr h p =>
    by_cases hl : lengthAgrees h.mlen (8 + p.size) = true
    · have hn := (lengthAgrees_iff _ _).mp hl
      cases p with
      | badSize rest => exact .inr (.inl ⟨rfl, rfl, by rw [exec, execRhr, if_pos hl]; rfl⟩)
      | fields a n =>
        have hn : h.mlen.toNat = 6 := hn
        rcases memRead_cases s a n with ⟨hr, e⟩ | ⟨hr, e⟩
        · refine .inr (.inr (.inr (.inl ⟨h, a, n, rfl, hn, hr, ?_⟩)))
          simp only [exec, execRhr, hl, e, if_true]
        · refine .inr (.inr (.inl ⟨by simpa [Instr.wellSized] using hn, ⟨_, _, rfl, hr⟩, ?_⟩))
          simp only [exec, execRhr, hl, e, if_true]
          rfl
    · refine .inr (.inl ⟨rfl, ?_, by rw [exec, execRhr.eq_def, if_neg hl]; rfl⟩)
      cases p with
      | badSize rest => rfl
      | fields a n => simpa [lengthAgrees, Instr.wellSized, ReadPdu.size] using hl
  | wsr h p =>
    by_cases hl : lengthAgrees h.mlen (8 + p.size) = true
    · have hn := (lengthAgrees_iff _ _).mp hl
      cases p with
      | badSize rest => exact .inr (.inl ⟨rfl, rfl, by rw [exec, execWsr, if_pos hl]; rfl⟩)
      | fields a v =>
        have hn : h.mlen.toNat = 6 := hn
        rcases memWrite_cases s a 1 [v] with ⟨hr, e⟩ | ⟨hr, e⟩
        · refine .inr (.inr (.inr (.inr (.inl ⟨h, a, v, rfl, hn, hr, ?_⟩))))
          simp only [exec, execWsr, hl, e, if_true, writeSlice_single]
        · refine .inr (.inr (.inl ⟨by simpa [Instr.wellSized] using hn, ⟨_, _, rfl, hr⟩, ?_⟩))
          simp only [exec, execWsr, hl, e, if_true]
          rfl
    · refine .inr (.inl ⟨rfl, ?_, by rw [exec, execWsr.eq_def, if_neg hl]; rfl⟩)
      cases p with
      | badSize rest => rfl
      | fields a v => simpa [lengthAgrees, Instr.wellSized, WriteSinglePdu.size] using hl
  | wmr h p =>
    by_cases hl : lengthAgrees h.mlen (8 + p.size) = true
    · have hn := (lengthAgrees_iff _ _).mp hl
      cases p with
      | short rest => exact .inr (.inl ⟨rfl, rfl, by rw [exec, execWmr, if_pos hl]; rfl⟩)
      | fields a n k d =>
        have hn : h.mlen.toNat = 7 + d.length := by
          simp only [WriteMultiplePdu.size] at hn; omega
        by_cases hk : (byteCountAgrees k n && dataLengthAgrees k d) = true
        · have hk' := hk
          rw [Bool.and_eq_true, byteCountAgrees_iff, dataLengthAgrees_iff] at hk'
          have hw : Instr.wellSized (.wmr h (.fields a n k d)) = true := by
            simp [Instr.wellSized, hn, hk'.1, hk'.2]
          rcases memWrite_cases s a n (dataWords d) with ⟨hr, e⟩ | ⟨hr, e⟩
          · refine .inr (.inr (.inr (.inr (.inr ⟨h, a, n, k, d, rfl, hn, hk'.1, hk'.2, hr, ?_⟩))))
            simp only [exec, execWmr, hl, hk, e, if_true]
          · refine .inr (.inr (.inl ⟨hw, ⟨_, _, rfl, hr⟩, ?_⟩))
            simp only [exec, execWmr, hl, hk, e, if_true]
            rfl
        · refine .inr (.inl ⟨rfl, ?_, ?_⟩)
          · rw [Bool.eq_false_iff]
            intro hw
            simp only [Instr.wellSized, Bool.and_eq_true, beq_iff_eq] at hw
            exact hk (by
              rw [Bool.and_eq_true, byteCountAgrees_iff, dataLengthAgrees_iff]
              exact ⟨hw.1.2, hw.2⟩)
          · rw [exec, execWmr, if_pos hl]
            simp only [hk]
            rfl
    · refine .inr (.inl ⟨rfl, ?_, by rw [exec, execWmr.eq_def, if_neg hl]; rfl⟩)
      cases p with
      | short rest => rfl
      | fields a n k d =>
        rw [Bool.eq_false_iff]
        intro hw
        simp only [Instr.wellSized, Bool.and_eq_true, beq_iff_eq] at hw
        exact hl ((lengthAgrees_iff _ _).mpr (by simp only [WriteMultiplePdu.size]; omega))

end Sys2Proof.Machine
end

