-- ==== Sys2Proof/Laws/Exec.lean ====
section
/-! SUPPORT. Every instruction in one equation: which exception it meets, which registers it leaves and
which frame it hands over, each a function of N, the register file and the instruction alone. -/

namespace Sys2Proof.Machine

/-- The first check of R182 (orders 5 to 8) a frame fails, if any. -/
def execException (n : Nat) (i : Instr) : Option ModbusException :=
  if i.supported = false then some .illegalFunction
  else if i.wellSized = false then some .illegalDataValue
  else match i.access with
    | some (a, len) => if n < a + len then some .illegalDataAddress else none
    | none => none

/-- The registers after an executed request (R130, R140, R141). -/
def storedRegs (x : List Word) : Instr → List Word
  | .wsr _ (.fields a v) => x.set a.toNat v
  | .wmr _ (.fields a _ _ data) => writeSlice x a.toNat (dataWords data)
  | _ => x

/-- The normal response (R166 to R168). -/
def normalFrame (x : List Word) : Instr → List Byte
  | .rhr h (.fields a n) => encodeReadResponse h.tid h.uid (readSlice x a.toNat n.toNat)
  | .wsr h (.fields a v) => encodeWriteSingleResponse h.tid h.uid a v
  | .wmr h (.fields a n _ _) => encodeWriteMultipleResponse h.tid h.uid a n
  | _ => []

/-- The registers after a request. -/
def execRegs (n : Nat) (x : List Word) (i : Instr) : List Word :=
  match execException n i with
  | some _ => x
  | none => storedRegs x i

/-- The frame a request is answered with. -/
def execFrame (n : Nat) (x : List Word) (i : Instr) : List Byte :=
  match execException n i with
  | some e => exceptionBytes i.header i.functionCode (exceptionCode e)
  | none => normalFrame x i

/-- The diagnostic events before the send. -/
def execNote (i : Instr) (s : State) : State :=
  match execException s.params.n i with
  | some e => exceptionDiag e s
  | none => s

theorem execException_access {n : Nat} {i : Instr} {a len : Nat} (hs : i.supported = true)
    (hw : i.wellSized = true) (ha : i.access = some (a, len)) :
    execException n i = if n < a + len then some .illegalDataAddress else none := by
  simp [execException, hs, hw, ha]

/-- A well-sized request is a supported one. -/
theorem supported_of_wellSized {i : Instr} (h : i.wellSized = true) : i.supported = true := by
  cases i <;> simp_all [Instr.wellSized, Instr.supported]

/-- The one equation of `exec` (R110 steps 3 and 4). -/
theorem exec_eq (i : Instr) (s : State) :
    exec i s = .next (respond (execFrame s.params.n s.regs i)
      { execNote i s with regs := execRegs s.params.n s.regs i }) := by
  have hraise : ∀ e, execException s.params.n i = some e →
      raise e i.header i.functionCode s = respond (execFrame s.params.n s.regs i)
        { execNote i s with regs := execRegs s.params.n s.regs i } := by
    intro e he
    simp only [execFrame, execNote, execRegs, he, raise, encodeException_eq]
    cases e <;> rfl
  rcases exec_cases i s with ⟨hu, e⟩ | ⟨hu, hw, e⟩ | ⟨hw, ⟨a, n, ha, hr⟩, e⟩ |
      ⟨h, a, n, rfl, hm, hr, e⟩ | ⟨h, a, v, rfl, hm, hr, e⟩ | ⟨h, a, n, k, d, rfl, hm, hk, hd, hr, e⟩
  · rw [e, hraise]; simp [execException, hu]
  · rw [e, hraise]; simp [execException, hu, hw]
  · rw [e, hraise]; rw [execException_access (supported_of_wellSized hw) hw ha, if_pos hr]
  · have he : execException s.params.n (.rhr h (.fields a n)) = none := by
      rw [execException_access rfl (by simp [Instr.wellSized, hm]) rfl, if_neg (by omega)]
    simp only [e, execFrame, execNote, execRegs, he]
    rfl
  · have he : execException s.params.n (.wsr h (.fields a v)) = none := by
      rw [execException_access rfl (by simp [Instr.wellSized, hm]) rfl, if_neg (by omega)]
    simp only [e, execFrame, execNote, execRegs, he]
    rfl
  · have he : execException s.params.n (.wmr h (.fields a n k d)) = none := by
      rw [execException_access rfl (by simp [Instr.wellSized, hm, hk, hd]) rfl, if_neg (by omega)]
    simp only [e, execFrame, execNote, execRegs, he]
    rfl

@[simp] theorem execNote_params (i : Instr) (s : State) : (execNote i s).params = s.params := by
  unfold execNote; split <;> simp

@[simp] theorem execNote_rx (i : Instr) (s : State) : (execNote i s).rx = s.rx := by
  unfold execNote; split <;> simp

@[simp] theorem execNote_sendOk (i : Instr) (s : State) : (execNote i s).sendOk = s.sendOk := by
  unfold execNote; split <;> simp

@[simp] theorem execNote_loc (i : Instr) (s : State) : (execNote i s).loc = s.loc := by
  unfold execNote; split <;> simp

@[simp] theorem execNote_agents (i : Instr) (s : State) : (execNote i s).agents = s.agents := by
  unfold execNote; split <;> simp

@[simp] theorem execNote_script (i : Instr) (s : State) : (execNote i s).script = s.script := by
  unfold execNote; split <;> simp

/-- What an instruction leaves in the register file and hands to send. -/
theorem exec_regs_tx {i : Instr} {s t : State} (h : exec i s = .next t) :
    t.regs = execRegs s.params.n s.regs i ∧ t.tx = some (execFrame s.params.n s.regs i) := by
  rw [exec_eq] at h
  cases h
  exact ⟨respond_regs _ _, respond_tx _ _⟩

/-- What an instruction leaves alone (R184 (b), R55, R56). -/
theorem exec_keeps {i : Instr} {s t : State} (h : exec i s = .next t) :
    t.params = s.params ∧ t.rx = s.rx ∧ t.sendOk = s.sendOk ∧ t.loc = s.loc ∧
      t.agents = s.agents ∧ t.script = s.script := by
  rw [exec_eq] at h
  cases h
  simp

/-- Every instruction answers a next state (R187). -/
theorem exec_total (i : Instr) (s : State) : ∃ t, exec i s = .next t := ⟨_, exec_eq i s⟩

end Sys2Proof.Machine
end

