-- ==== Sys2Proof/Laws/PerInstr.lean ====
section
/-! SUPPORT. Statements about every instruction, one lemma per constructor. -/

namespace Sys2Proof.Laws.EncodedSize

/-- The encoding has as many bytes as the frame it stands for (R84 to R86, R94). -/
def Statement (i : Instr) : Prop := (encode i).length = i.size

theorem rhr (h : Header) (p : ReadPdu) : Statement (.rhr h p) := by
  cases p <;> simp [Statement, encode, Instr.size, ReadPdu.size, encodeHeader_length, bytes16_length]
  omega

theorem wsr (h : Header) (p : WriteSinglePdu) : Statement (.wsr h p) := by
  cases p <;>
    simp [Statement, encode, Instr.size, WriteSinglePdu.size, encodeHeader_length, bytes16_length]
  omega

theorem wmr (h : Header) (p : WriteMultiplePdu) : Statement (.wmr h p) := by
  cases p <;>
    simp [Statement, encode, Instr.size, WriteMultiplePdu.size, encodeHeader_length,
      bytes16_length] <;> omega

theorem illegal (h : Header) (fc : Byte) (rest : List Byte) : Statement (.illegal h fc rest) := by
  simp [Statement, encode, Instr.size, encodeHeader_length]; omega

end Sys2Proof.Laws.EncodedSize
end

