-- ==== Sys2Proof/Laws/Step.lean ====
section
/-! SUPPORT. What the agents, the service cycle and a step can do. -/

namespace Sys2Proof.Machine

/-! ## Registers seen by the agents -/

theorem setReg_cases (a v : Word) (s : State) :
    setReg a v s = s ∨ setReg a v s = { s with regs := s.regs.set a.toNat v } := by
  rcases memWrite_cases s a 1 [v] with ⟨_, e⟩ | ⟨_, e⟩
  · exact .inr (by rw [setReg, e, writeSlice_single]; rfl)
  · exact .inl (by rw [setReg, e]; rfl)

theorem setReg_inRange {a v : Word} {s : State} (h : a.toNat + 1 ≤ s.params.n) :
    setReg a v s = { s with regs := s.regs.set a.toNat v } := by
  rcases memWrite_cases s a 1 [v] with ⟨_, e⟩ | ⟨h', _⟩
  · rw [setReg, e, writeSlice_single]; rfl
  · exact absurd h' (by have h1 : (1 : Word).toNat = 1 := rfl; omega)

/-- An agent reads the register it names, or does nothing (91 N25). -/
theorem withReg_cases (a : Word) (s : State) (k : Word → State) :
    withReg a s k = s ∨ ∃ v, s.regs[a.toNat]? = some v ∧ withReg a s k = k v := by
  unfold withReg
  split
  · rename_i v h
    refine .inr ⟨v, ?_, rfl⟩
    rcases memRead_cases s a 1 with ⟨_, e⟩ | ⟨_, e⟩
    · rw [e] at h
      have h' := congrArg (fun l => l[0]?) (Option.some.inj h)
      simpa [readSlice_getElem?] using h'
    · rw [e] at h; cases h
  · exact .inl rfl

theorem withReg_inRange {a : Word} {s : State} {v : Word} (k : Word → State)
    (h : a.toNat + 1 ≤ s.params.n) (hv : s.regs[a.toNat]? = some v) : withReg a s k = k v := by
  rcases memRead_cases s a 1 with ⟨_, e⟩ | ⟨h', _⟩
  · have hr : readSlice s.regs a.toNat (1 : Word).toNat = [v] := by
      apply List.ext_getElem?
      intro i
      rw [readSlice_getElem?]
      cases i with
      | zero => simpa using hv
      | succ i => simp
    rw [withReg, e, hr]
  · exact absurd h' (by have h1 : (1 : Word).toNat = 1 := rfl; omega)

/-! ## The agents (R191, R192) -/

/-- With catching up a tick makes as many increments as whole periods have passed (log 7). -/
theorem firesDue_catchUp {p : Params} (h : p.counterCatchUp = true) (lastFire now : Nat) :
    firesDue p lastFire now = (now - lastFire) / firePeriod := by
  simp only [firesDue, h, if_true]
  split
  · rfl
  · rw [Nat.div_eq_of_lt]; unfold firePeriod at *; omega

theorem counterFire_cases (k : Nat) (v : Word) (s : State) : ∃ regs,
    counterFire k v s = { s with
      regs := regs
      agents := { s.agents with lastFire := s.agents.lastFire + firePeriod * k } } ∧
    (regs = s.regs ∨ regs = s.regs.set 3 (v + BitVec.ofNat 16 k)) := by
  unfold counterFire
  rcases setReg_cases counterOffset (v + BitVec.ofNat 16 k) s with e | e <;> rw [e]
  · exact ⟨_, rfl, .inl rfl⟩
  · exact ⟨_, rfl, .inr rfl⟩

/-- The counter agent writes nothing but register 3 and its own `lastFire` (R191). -/
theorem counterTick_cases (now : Nat) (s : State) :
    counterTick now s = s ∨ ∃ v k regs, s.regs[3]? = some v ∧
      counterTick now s = { s with
        regs := regs
        agents := { s.agents with lastFire := s.agents.lastFire + firePeriod * k } } ∧
      (regs = s.regs ∨ regs = s.regs.set 3 (v + BitVec.ofNat 16 k)) := by
  unfold counterTick
  dsimp only
  split
  · exact .inl rfl
  · rcases withReg_cases counterOffset s
      (fun v => counterFire (firesDue s.params s.agents.lastFire now) v s) with e | ⟨v, hv, e⟩
    · exact .inl e
    · rw [e]
      obtain ⟨regs, h⟩ := counterFire_cases (firesDue s.params s.agents.lastFire now) v s
      exact .inr ⟨v, _, regs, hv, h⟩

theorem blinkDue_iff (atOnce : Bool) (ms : Word) (now deadline : Nat) :
    blinkDue atOnce ms now deadline = true ↔ deadline ≤ now ∨ (atOnce = true ∧ ms = 0) := by
  simp [blinkDue]

theorem ledApply_cases (next : Level × Nat) (s : State) : ∃ regs,
    ledApply next s = { s with
      regs := regs
      agents := { s.agents with ledOut := next.1, deadline := next.2 } } ∧
    (regs = s.regs ∨ regs = s.regs.set 2 (levelWord next.1)) := by
  unfold ledApply
  split
  · exact ⟨_, rfl, .inl rfl⟩
  · rcases setReg_cases ledStateOffset (levelWord next.1) s with e | e <;> rw [e]
    · exact ⟨_, rfl, .inl rfl⟩
    · exact ⟨_, rfl, .inr rfl⟩

/-- The LED agent writes nothing but register 2, its output and its deadline (R192). -/
theorem ledTick_cases (now : Nat) (s : State) :
    ledTick now s = s ∨ ∃ out deadline regs,
      ledTick now s = { s with
        regs := regs
        agents := { s.agents with ledOut := out, deadline := deadline } } ∧
      (regs = s.regs ∨ regs = s.regs.set 2 (levelWord out)) := by
  unfold ledTick
  rcases withReg_cases ledModeOffset s (fun mode => withReg blinkMsOffset s fun ms =>
    ledApply (ledNext s.params.blinkZeroAtOnce (ledModeOf mode) ms now s.agents.ledOut
      s.agents.deadline) s)
    with e | ⟨m, _, e⟩ <;> rw [e]
  · exact .inl rfl
  · rcases withReg_cases blinkMsOffset s (fun ms =>
      ledApply (ledNext s.params.blinkZeroAtOnce (ledModeOf m) ms now s.agents.ledOut
        s.agents.deadline) s)
      with e2 | ⟨ms, _, e2⟩ <;> rw [e2]
    · exact .inl rfl
    · obtain ⟨regs, h⟩ := ledApply_cases
        (ledNext s.params.blinkZeroAtOnce (ledModeOf m) ms now s.agents.ledOut s.agents.deadline) s
      exact .inr ⟨_, _, regs, h⟩

/-! ## The Connection Manager (R193) -/

theorem live_iff (g : Agents) : g.live = true ↔ g.conn = .connected ∧ g.peerGone = false := by
  simp [Agents.live]

/-- Accept and receive see a lost connection: without a live one the manager is Disconnected. -/
theorem detectLoss_of_not_live {s : State} (h : s.agents.live = false) :
    detectLoss s =
      { s with agents := { s.agents with conn := .disconnected, peerGone := false } } := by
  simp [detectLoss, h]

theorem detectLoss_of_live {s : State} (h : s.agents.live = true) : detectLoss s = s := by
  simp [detectLoss, h]

/-- A live client is kept; otherwise the accept attempt decides (R193). -/
theorem acceptIfNeeded_eq (success : Bool) (s : State) :
    acceptIfNeeded success s = if s.agents.live then s else
      { s with agents := { s.agents with
          conn := if success then .connected else .disconnected, peerGone := false } } := by
  cases h : s.agents.live
  · simp [acceptIfNeeded, detectLoss_of_not_live h, Agents.live, finishAccept, startAccept]
  · simp [acceptIfNeeded, detectLoss_of_live h, h]

/-! ## The service cycle (R110) -/

/-- A service cycle answers nothing (R112, R113, R115), or runs the frame in the buffer. -/
theorem serveBuffer_cases (s : State) :
    (∃ r, decode s.rx = .rejected r ∧ serveBuffer s = .next (dropFrame r s)) ∨
    (∃ i, decode s.rx = .instr i ∧ serveBuffer s = exec i s) := by
  unfold serveBuffer
  split
  · rename_i r h; exact .inl ⟨r, h, rfl⟩
  · rename_i i h; exact .inr ⟨i, h, rfl⟩

/-- Without a live connection a session cycle receives nothing and leaves Disconnected (R193). -/
theorem sessionCycle_of_not_live {s : State} (pending : List Byte) (sendOk : Bool)
    (h : s.agents.live = false) :
    sessionCycle pending sendOk s = .next { s with
      rx := [], sendOk := false
      agents := { s.agents with conn := .disconnected, peerGone := false } } := by
  simp [sessionCycle, h, detectLoss_of_not_live h, serviceCycle, receive, serveBuffer, decode,
    dropFrame]

/-! ## A step -/

theorem step_of_ok {s : State} (h : s.params.ok = true) : step s = runScript s := by
  rw [step, if_pos h]

theorem step_of_cons {s : State} {m : Move} {rest : List Move} (h : s.params.ok = true)
    (hs : s.script = m :: rest) : step s = runMove m (openPorts { s with script := rest }) := by
  rw [step_of_ok h, runScript, nextMove, hs]

/-- A step that answers a next state had legal parameters (R13). -/
theorem ok_of_step_next {s t : State} (h : step s = .next t) : s.params.ok = true := by
  unfold step at h
  split at h
  · assumption
  · cases h

end Sys2Proof.Machine
end

