-- ==== Sys2Proof/Tests/Slice0.lean ====
section
/-! SUPPORT. Small tests of the model and the witnesses of the statements' hypotheses. The expected bytes
and registers are those of spec/95_test_vectors.md, named in each docstring, or written out from the
encoding rules of 30_encoding.md. -/

namespace Sys2Proof.Tests

open Sys2Proof.Machine

/-! ## Helpers -/

/-- The reset state with these moves to come. -/
def withScript (script : List Move) : State := { State.reset with script := script }

/-- The reset state with register `a` holding `v` and these moves to come. -/
def withRegister (a : Nat) (v : Word) (script : List Move) : State :=
  { State.reset with regs := State.reset.regs.set a v, script := script }

/-- The reset state with a client connected (R193). -/
def withClient (script : List Move) : State :=
  { withScript script with agents := { State.reset.agents with conn := .connected } }

/-- The reset state with other parameters. -/
def withParams (n rxMax : Nat) : State :=
  State.resetWith { Params.reference with n := n, rxMax := rxMax }

/-- Registers and sent frame after one step: what a vector of 95_test_vectors.md states. -/
def outcome (s : State) : Option (List Word × Option (List Byte)) :=
  match step s with
  | .next t => some (t.regs, t.tx)
  | _ => none

/-- One service cycle on the reset state. -/
def served (b : List Byte) : Option (List Word × Option (List Byte)) :=
  outcome (withScript [.service b true])

/-- The registers right after reset (R36). -/
def resetFile : List Word := [3, 250, 0, 0, 0, 0, 0, 0, 0, 0]

/-- A header with transaction id 1, unit id 1. -/
def header (mlen : Word) : Header := ⟨1, mlen, 1⟩

/-! ## WellFormed: each check refuses an ill-formed term -/

/-- R84: four bytes are the fields of a read, not a malformed form. -/
theorem test_wf_refuses_rhr_of_operation_size :
    (Instr.rhr (header 6) (.badSize [0, 0, 0, 1])).wellFormed = false := by decide

/-- R85: the same for a single write. -/
theorem test_wf_refuses_wsr_of_operation_size :
    (Instr.wsr (header 6) (.badSize [0, 0, 0, 1])).wellFormed = false := by decide

/-- R86: five bytes hold address, count and byte count. -/
theorem test_wf_refuses_wmr_of_operation_size :
    (Instr.wmr (header 7) (.short [0, 0, 0, 0, 0])).wellFormed = false := by decide

/-- R91: the three supported function codes are not illegal. -/
theorem test_wf_refuses_illegal_with_supported_code :
    (Instr.illegal (header 6) 0x03 []).wellFormed = false ∧
    (Instr.illegal (header 6) 0x06 []).wellFormed = false ∧
    (Instr.illegal (header 6) 0x10 []).wellFormed = false := by decide

/-- R84 to R86, R91: what the checks let through. -/
theorem test_wf_accepts_frames :
    (Instr.rhr (header 5) (.badSize [0, 0, 0])).wellFormed = true ∧
    (Instr.wsr (header 6) (.fields 0 2)).wellFormed = true ∧
    (Instr.wmr (header 6) (.short [0, 4, 0, 1])).wellFormed = true ∧
    (Instr.illegal (header 2) 0x00 []).wellFormed = true := by decide

/-! ## Decode: bytes written out from R81 to R86 -/

/-- V-RHR-12: `RHR 0xBEEF, 0xFF, 1, 1`. -/
theorem test_decode_rhr :
    decode [0xBE, 0xEF, 0x00, 0x00, 0x00, 0x06, 0xFF, 0x03, 0x00, 0x01, 0x00, 0x01]
      = .instr (.rhr ⟨0xBEEF, 6, 0xFF⟩ (.fields 1 1)) := by decide

/-- V-RHR-9: a read one byte short. -/
theorem test_decode_rhr_short :
    decode [0x00, 0x09, 0x00, 0x00, 0x00, 0x05, 0x01, 0x03, 0x00, 0x00, 0x00]
      = .instr (.rhr ⟨9, 5, 1⟩ (.badSize [0, 0, 0])) := by decide

/-- V-WSR-2: `WSR 0x11, 1, 9, 0xFFFF`. -/
theorem test_decode_wsr :
    decode [0x00, 0x11, 0x00, 0x00, 0x00, 0x06, 0x01, 0x06, 0x00, 0x09, 0xFF, 0xFF]
      = .instr (.wsr ⟨0x11, 6, 1⟩ (.fields 9 0xFFFF)) := by decide

/-- V-WSR-5: the value one byte short. -/
theorem test_decode_wsr_short :
    decode [0x00, 0x14, 0x00, 0x00, 0x00, 0x05, 0x01, 0x06, 0x00, 0x00, 0x00]
      = .instr (.wsr ⟨0x14, 5, 1⟩ (.badSize [0, 0, 0])) := by decide

/-- V-WMR-1: `WMR 0x20, 1, 4, [0x1234, 0xABCD, 1]`. -/
theorem test_decode_wmr :
    decode [0x00, 0x20, 0x00, 0x00, 0x00, 0x0D, 0x01, 0x10, 0x00, 0x04, 0x00, 0x03, 0x06,
        0x12, 0x34, 0xAB, 0xCD, 0x00, 0x01]
      = .instr (.wmr ⟨0x20, 13, 1⟩ (.fields 4 3 6 [0x12, 0x34, 0xAB, 0xCD, 0x00, 0x01])) := by
  decide

/-- V-WMR-7: no byte count. -/
theorem test_decode_wmr_short :
    decode [0x00, 0x26, 0x00, 0x00, 0x00, 0x06, 0x01, 0x10, 0x00, 0x04, 0x00, 0x01]
      = .instr (.wmr ⟨0x26, 6, 1⟩ (.short [0, 4, 0, 1])) := by decide

/-- V-ILL-5: function code 0x17. -/
theorem test_decode_illegal :
    decode [0x00, 0x34, 0x00, 0x00, 0x00, 0x0D, 0x09, 0x17, 0x00, 0x00]
      = .instr (.illegal ⟨0x34, 13, 9⟩ 0x17 [0, 0]) := by decide

/-- V-DROP-1, V-DROP-2, V-DROP-3: no bytes, a runt, another protocol. -/
theorem test_decode_rejects :
    decode [] = .rejected .empty ∧
    decode [0x00, 0x01, 0x00, 0x00, 0x00, 0x01, 0x01] = .rejected .runt ∧
    decode [0x00, 0x01, 0x00, 0x01, 0x00, 0x06, 0x01, 0x03, 0x00, 0x00, 0x00, 0x01]
      = .rejected .badProtocol := by decide

/-- The table words of R96: protocol id 0 and the function code, all other bits 0. -/
theorem test_decode_table_words :
    decodeTableWord 64 0x03 = some (.rhr ⟨0, 0, 0⟩ (.fields 0 0)) ∧
    decodeTableWord 64 0x06 = some (.wsr ⟨0, 0, 0⟩ (.fields 0 0)) ∧
    decodeTableWord 64 0x10 = some (.wmr ⟨0, 0, 0⟩ (.fields 0 0 0 [])) ∧
    decodeTableWord 64 0x0000000000000100 = some (.illegal ⟨0, 0, 1⟩ 0 []) ∧
    decodeTableWord 64 0x0000000100000003 = none := by decide

/-- R97: the textual `WMR` line of V-WMR-1 stands for its bytes. -/
theorem test_request_wmr_line :
    encode (requestWmr 0x20 1 4 [0x1234, 0xABCD, 1])
      = [0x00, 0x20, 0x00, 0x00, 0x00, 0x0D, 0x01, 0x10, 0x00, 0x04, 0x00, 0x03, 0x06,
        0x12, 0x34, 0xAB, 0xCD, 0x00, 0x01] := by decide

/-! ## The bound check (V-BND) -/

/-- V-BND, the rows where it holds. -/
theorem test_in_range :
    inRange 10 0 0 = true ∧ inRange 10 0 10 = true ∧ inRange 10 5 5 = true ∧
    inRange 10 9 1 = true ∧ inRange 10 10 0 = true := by decide

/-- V-BND, the rows where it does not, the wrapping sums among them. -/
theorem test_not_in_range :
    inRange 10 0 11 = false ∧ inRange 10 5 6 = false ∧ inRange 10 10 1 = false ∧
    inRange 10 11 0 = false ∧ inRange 10 8 5 = false ∧ inRange 10 0xFFFF 2 = false ∧
    inRange 10 1 0xFFFF = false ∧ inRange 10 0xFFFF 0xFFFF = false := by decide

/-! ## One step: two vectors for each instruction -/

/-- V-RHR-1. -/
theorem test_rhr_reads_the_control_registers :
    served [0x00, 0x01, 0x00, 0x00, 0x00, 0x06, 0x01, 0x03, 0x00, 0x00, 0x00, 0x04]
      = some (resetFile, some [0x00, 0x01, 0x00, 0x00, 0x00, 0x0B, 0x01, 0x03, 0x08,
        0x00, 0x03, 0x00, 0xFA, 0x00, 0x00, 0x00, 0x00]) := by decide

/-- V-RHR-7: no wrap. -/
theorem test_rhr_does_not_wrap :
    served [0x00, 0x07, 0x00, 0x00, 0x00, 0x06, 0x01, 0x03, 0xFF, 0xFF, 0x00, 0x02]
      = some (resetFile, some [0x00, 0x07, 0x00, 0x00, 0x00, 0x03, 0x01, 0x83, 0x02]) := by decide

/-- V-WSR-2: last register, largest value. -/
theorem test_wsr_writes_the_last_register :
    served [0x00, 0x11, 0x00, 0x00, 0x00, 0x06, 0x01, 0x06, 0x00, 0x09, 0xFF, 0xFF]
      = some ([3, 250, 0, 0, 0, 0, 0, 0, 0, 65535],
        some [0x00, 0x11, 0x00, 0x00, 0x00, 0x06, 0x01, 0x06, 0x00, 0x09, 0xFF, 0xFF]) := by decide

/-- V-WSR-3: the first offset that holds nothing. -/
theorem test_wsr_out_of_range :
    served [0x00, 0x12, 0x00, 0x00, 0x00, 0x06, 0x01, 0x06, 0x00, 0x0A, 0x00, 0x01]
      = some (resetFile, some [0x00, 0x12, 0x00, 0x00, 0x00, 0x03, 0x01, 0x86, 0x02]) := by decide

/-- V-WMR-1. -/
theorem test_wmr_writes_a_slice :
    served [0x00, 0x20, 0x00, 0x00, 0x00, 0x0D, 0x01, 0x10, 0x00, 0x04, 0x00, 0x03, 0x06,
        0x12, 0x34, 0xAB, 0xCD, 0x00, 0x01]
      = some ([3, 250, 0, 0, 4660, 43981, 1, 0, 0, 0],
        some [0x00, 0x20, 0x00, 0x00, 0x00, 0x06, 0x01, 0x10, 0x00, 0x04, 0x00, 0x03]) := by decide

/-- V-WMR-9: malformed and out of range, code 3 wins. -/
theorem test_wmr_size_before_address :
    served [0x00, 0x28, 0x00, 0x00, 0x00, 0x0A, 0x01, 0x10, 0x00, 0x09, 0x00, 0x02, 0x03,
        0x00, 0x01, 0x00]
      = some (resetFile, some [0x00, 0x28, 0x00, 0x00, 0x00, 0x03, 0x01, 0x90, 0x03]) := by decide

/-- V-ILL-2: the high bit is already set. -/
theorem test_illegal_keeps_a_high_bit :
    served [0x00, 0x31, 0x00, 0x00, 0x00, 0x03, 0x01, 0x83, 0x02]
      = some (resetFile, some [0x00, 0x31, 0x00, 0x00, 0x00, 0x03, 0x01, 0x83, 0x01]) := by decide

/-- V-ILL-4: code 1 wins over code 3. -/
theorem test_illegal_before_sizes :
    served [0x00, 0x33, 0x00, 0x00, 0x00, 0x63, 0x01, 0x01, 0x00, 0x00, 0x00, 0x01]
      = some (resetFile, some [0x00, 0x33, 0x00, 0x00, 0x00, 0x03, 0x01, 0x81, 0x01]) := by decide

/-! ## Drops and the send port -/

/-- V-DROP-5: two requests in one receive result. -/
theorem test_drop_coalesced_requests :
    served [0x00, 0x40, 0x00, 0x00, 0x00, 0x06, 0x01, 0x03, 0x00, 0x00, 0x00, 0x01,
        0x00, 0x41, 0x00, 0x00, 0x00, 0x06, 0x01, 0x03, 0x00, 0x01, 0x00, 0x01]
      = some (resetFile, some [0x00, 0x40, 0x00, 0x00, 0x00, 0x03, 0x01, 0x83, 0x03]) := by decide

/-- V-DROP-3 and P3 step 5: another protocol, and a fragment. -/
theorem test_drop_foreign_and_runt :
    served [0x00, 0x01, 0x00, 0x01, 0x00, 0x06, 0x01, 0x03, 0x00, 0x00, 0x00, 0x01]
      = some (resetFile, none) ∧
    served [0x00, 0x01, 0x00, 0x00, 0x00] = some (resetFile, none) := by decide

set_option maxRecDepth 20000 in
/-- V-DROP-4, V-DROP-6: one byte more than RX_MAX, and exactly RX_MAX. -/
theorem test_drop_oversize :
    served (List.replicate 261 0) = some (resetFile, none) ∧
    served (List.replicate 260 0)
      = some (resetFile, some [0x00, 0x00, 0x00, 0x00, 0x00, 0x03, 0x00, 0x80, 0x01]) := by
  decide

/-- V-DROP-7: the write stays when the send fails. -/
theorem test_failed_send_keeps_the_write :
    outcome (withScript [.service
        [0x00, 0x50, 0x00, 0x00, 0x00, 0x06, 0x01, 0x06, 0x00, 0x04, 0x00, 0x09] false])
      = some ([3, 250, 0, 0, 9, 0, 0, 0, 0, 0],
        some [0x00, 0x50, 0x00, 0x00, 0x00, 0x06, 0x01, 0x06, 0x00, 0x04, 0x00, 0x09]) := by
  decide

/-! ## The response encoder -/

/-- V-ENC-3. -/
theorem test_encode_read_response :
    encodeReadResponse 0xBEEF 0xFF [0xCAFE]
      = [0xBE, 0xEF, 0x00, 0x00, 0x00, 0x05, 0xFF, 0x03, 0x02, 0xCA, 0xFE] := by decide

/-- V-ENC-4, V-ENC-5. -/
theorem test_encode_write_responses :
    encodeWriteSingleResponse 0x10 1 0 2
      = [0x00, 0x10, 0x00, 0x00, 0x00, 0x06, 0x01, 0x06, 0x00, 0x00, 0x00, 0x02] ∧
    encodeWriteMultipleResponse 0x20 1 4 3
      = [0x00, 0x20, 0x00, 0x00, 0x00, 0x06, 0x01, 0x10, 0x00, 0x04, 0x00, 0x03] := by decide

/-- V-ENC-6, V-ENC-7, V-ENC-8. -/
theorem test_encode_exceptions :
    encodeException 2 1 0x03 .illegalDataAddress
      = [0x00, 0x02, 0x00, 0x00, 0x00, 0x03, 0x01, 0x83, 0x02] ∧
    encodeException 0x28 1 0x10 .illegalDataValue
      = [0x00, 0x28, 0x00, 0x00, 0x00, 0x03, 0x01, 0x90, 0x03] ∧
    encodeException 0x31 1 0x83 .illegalFunction
      = [0x00, 0x31, 0x00, 0x00, 0x00, 0x03, 0x01, 0x83, 0x01] := by decide

set_option maxRecDepth 20000 in
/-- V-ENC-9: 125 registers give 259 bytes, length field `00 FD`, then `03 FA`. -/
theorem test_encode_longest_response :
    (encodeReadResponse 0 0 (List.replicate 125 0)).length = 259 ∧
    ((encodeReadResponse 0 0 (List.replicate 125 0)).drop 4).take 5
      = [0x00, 0xFD, 0x00, 0x03, 0xFA] := by decide

/-! ## The agents and the local port -/

/-- V-ENV-1: the counter wraps. -/
theorem test_counter_wraps :
    (counterTick 1000 (withRegister 3 65535 [])).regs = resetFile := by decide

/-- S5: nothing before 1000 ms. -/
theorem test_counter_waits :
    counterTick 999 (withRegister 3 65535 []) = withRegister 3 65535 [] := by decide

/-- V-ENV-4: mode 77 is treated as Off. -/
theorem test_led_unknown_mode_is_off :
    let s := { withRegister 0 77 [] with agents := { State.reset.agents with ledOut := .high } }
    (ledTick 0 { s with regs := s.regs.set 2 1 }).regs = [77, 250, 0, 0, 0, 0, 0, 0, 0, 0] ∧
    (ledTick 0 { s with regs := s.regs.set 2 1 }).agents.ledOut = .low := by decide

/-- R192, R216, log 19: an interval of 0 with the deadline ahead waits, or toggles at once. -/
theorem test_led_zero_interval_before_the_deadline :
    let s := { withRegister 1 0 [] with agents := { State.reset.agents with deadline := 200 } }
    let atOnce := { s with params := { s.params with blinkZeroAtOnce := true } }
    (ledTick 199 s).agents.ledOut = .low ∧ (ledTick 200 s).agents.ledOut = .high ∧
    (ledTick 199 atOnce).agents.ledOut = .high := by decide

/-- S4: interval 200, deadline at 200: high at 200, low again at 400. -/
theorem test_led_blinks :
    let s := { withRegister 1 200 [] with agents := { State.reset.agents with deadline := 200 } }
    (ledTick 199 s).agents.ledOut = .low ∧ (ledTick 200 s).agents.ledOut = .high ∧
    (ledTick 400 (ledTick 200 s)).agents.ledOut = .low := by decide

/-- V-ENV-5, R190: a tick with a connected client runs the request, then the LED. -/
theorem test_tick_runs_request_then_led :
    outcome (withClient [.tick
        [0x02, 0x03, 0x00, 0x00, 0x00, 0x06, 0x01, 0x06, 0x00, 0x09, 0xCA, 0xFE] true 0])
      = some ([3, 250, 1, 0, 0, 0, 0, 0, 0, 0xCAFE],
        some [0x02, 0x03, 0x00, 0x00, 0x00, 0x06, 0x01, 0x06, 0x00, 0x09, 0xCA, 0xFE]) := by
  decide

/-- R34, R57: a local write of two registers at the top, one of them out of range. -/
theorem test_local_write_is_all_or_nothing :
    outcome (withScript [.localWrite 9 2 [7, 8]]) = some (resetFile, none) ∧
    outcome (withScript [.localWrite 8 2 [7, 8]])
      = some ([3, 250, 0, 0, 0, 0, 0, 0, 7, 8], none) := by decide

/-! ## Witnesses: states and operands that meet the hypotheses of the statements -/

/-- The bytes of V-RHR-1. -/
def readFrame : List Byte :=
  [0x00, 0x01, 0x00, 0x00, 0x00, 0x06, 0x01, 0x03, 0x00, 0x00, 0x00, 0x04]

/-- The bytes of V-WSR-2. -/
def writeFrame : List Byte :=
  [0x00, 0x11, 0x00, 0x00, 0x00, 0x06, 0x01, 0x06, 0x00, 0x09, 0xFF, 0xFF]

/-- The bytes of V-RHR-2: out of range. -/
def failingFrame : List Byte :=
  [0x00, 0x02, 0x00, 0x00, 0x00, 0x06, 0x01, 0x03, 0x00, 0x08, 0x00, 0x05]

/-- The ends of the parameter ranges of R4 are legal. -/
theorem witness_ResetLoadsTheRegisterFile :
    Params.reference.ok = true ∧ (withParams 4 12).params.ok = true ∧
    (withParams 125 260).params.ok = true := by decide

theorem witness_ResetMeetsTheInvariant :
    Params.reference.ok = true ∧ (withParams 4 12).params.ok = true := by decide

theorem witness_ResetMoveForgetsTheRunBefore :
    (withRegister 9 7 [.reset]).params.ok = true ∧
    (withRegister 9 7 [.reset]).script = .reset :: [] := by decide

/-- A service cycle, and a cycle behind the Connection Manager. -/
theorem witness_StepRunsTheDecodedRequest :
    State.reset.params.ok = true ∧ readFrame.length ≤ State.reset.params.rxMax ∧
    decode readFrame = .instr (.rhr ⟨1, 6, 1⟩ (.fields 0 4)) ∧
    (withScript [.service readFrame true]).script = .service readFrame true :: [] ∧
    (withClient [.session readFrame true]).script = .session readFrame true :: [] ∧
    (withClient [.session readFrame true]).agents.conn = .connected ∧
    (withClient [.session readFrame true]).agents.peerGone = false := by decide

theorem witness_PlacedTableWordRunsNext :
    State.reset.params.ok = true ∧ (tableFrame 64 0x10).length ≤ State.reset.params.rxMax ∧
    decodeTableWord 64 0x10 = some (.wmr ⟨0, 0, 0⟩ (.fields 0 0 0 [])) := by decide

theorem witness_NoStepIsEverStuck :
    (withScript [.localWrite 9 2 [7, 8]]).params.ok = true ∧
    ((withScript [.localWrite 9 2 [7, 8]]).script.all Move.wellFormed) = true ∧
    (State.reset.script.all Move.wellFormed) = true := by decide

/-- Just outside each constraint of R4, and a local write of two registers with one value. -/
theorem witness_IllegalChoicesAreRefused :
    (withParams 3 260).params.n < 4 ∧ 125 < (withParams 126 260).params.n ∧
    (withParams 10 11).params.rxMax < 12 ∧
    (withScript [.localWrite 0 2 [7]]).params.ok = true ∧
    (withScript [.localWrite 0 2 [7]]).script = .localWrite 0 2 [7] :: [] ∧
    [(7 : Word)].length ≠ (2 : Word).toNat := by decide

theorem witness_EveryStepKeepsTheInvariant :
    ∃ t, (withScript [.service writeFrame true]).Inv ∧
      step (withScript [.service writeFrame true]) = .next t :=
  ⟨_, by decide, rfl⟩

theorem witness_StepsKeepTheParameters :
    ∃ t, step (withScript [.service writeFrame true]) = .next t := ⟨_, rfl⟩

theorem witness_DecodeInvertsEncode :
    (Instr.rhr (header 6) (.fields 0 4)).wellFormed = true ∧
    (Instr.rhr (header 5) (.badSize [0, 0, 0])).wellFormed = true ∧
    (Instr.wsr (header 6) (.fields 9 0xFFFF)).wellFormed = true ∧
    (Instr.wmr (header 9) (.fields 3 1 2 [0, 0xFF])).wellFormed = true ∧
    (Instr.wmr (header 6) (.short [0, 4, 0, 1])).wellFormed = true ∧
    (Instr.illegal (header 2) 0xFF []).wellFormed = true := by decide

theorem witness_EncodeInvertsDecode :
    decode readFrame = .instr (.rhr ⟨1, 6, 1⟩ (.fields 0 4)) := by decide

/-- A word for each row of the opcode table, and one of another protocol. -/
theorem witness_MatchWordsSelectTheirRows :
    0xBEEF000000060103#64 &&& 0x0000FFFF000000FF#64 = 0x03#64 ∧
    0xBEEF000000060106#64 &&& 0x0000FFFF000000FF#64 = 0x06#64 ∧
    0xBEEF000000060110#64 &&& 0x0000FFFF000000FF#64 = 0x10#64 ∧
    (0xBEEF000000060107#64 &&& 0x0000FFFF00000000#64 = 0 ∧
      0xBEEF000000060107#64 &&& 0x0000FFFF000000FF#64 ≠ 0x03#64 ∧
      0xBEEF000000060107#64 &&& 0x0000FFFF000000FF#64 ≠ 0x06#64 ∧
      0xBEEF000000060107#64 &&& 0x0000FFFF000000FF#64 ≠ 0x10#64) ∧
    0xBEEF000100060103#64 &&& 0x0000FFFF00000000#64 ≠ 0 := by decide

/-- The boundaries of the consequences: `n = 0`, `n = 1`, `n = N + 1`, `a = N + 1`. -/
theorem witness_BoundCheckDoesNotWrap :
    (0 : Word) = 0 ∧ (1 : Word) = 1 ∧ 10 < (11 : Word).toNat ∧ 10 < (0xFFFF : Word).toNat := by
  decide

/-- Both clauses at the boundary: the last register, and one register too many. -/
theorem witness_ReadCopiesTheSlice :
    State.reset.regsWf ∧ State.reset.params.n < (9 : Word).toNat + (2 : Word).toNat ∧
    (9 : Word).toNat + (1 : Word).toNat ≤ State.reset.params.n := by decide

theorem witness_WriteOverwritesExactlyTheSlice :
    State.reset.regsWf ∧ [(7 : Word), 8].length = (2 : Word).toNat ∧
    State.reset.params.n < (9 : Word).toNat + (2 : Word).toNat ∧
    (8 : Word).toNat + (2 : Word).toNat ≤ State.reset.params.n := by decide

theorem witness_FailedAccessChangesNothing :
    ∃ t u, State.reset.params.n < (8 : Word).toNat + (5 : Word).toNat ∧
      (Instr.rhr (header 6) (.fields 8 5)).access = some ((8 : Word).toNat, (5 : Word).toNat) ∧
      exec (.rhr (header 6) (.fields 8 5)) State.reset = .next t ∧
      exec (.rhr (header 6) (.fields 8 5)) t = .next u :=
  ⟨_, _, by decide, rfl, rfl, rfl⟩

theorem witness_WriteThenReadRoundTrips :
    ∃ t, State.reset.regsWf ∧ [(7 : Word), 8].length = (2 : Word).toNat ∧
      memWrite State.reset 8 2 [7, 8] = some t :=
  ⟨_, by decide, by decide, rfl⟩

theorem witness_LocalPortUsesTheSameAccessors :
    State.reset.params.ok = true ∧
    (withScript [.localRead 9 1]).script = .localRead 9 1 :: [] ∧
    (withScript [.localWrite 8 2 [7, 8]]).script = .localWrite 8 2 [7, 8] :: [] ∧
    [(7 : Word), 8].length = (2 : Word).toNat := by decide

/-- The whole file, and the empty read at `a = N` (D16). -/
theorem witness_RhrAnswersTheRegisterValues :
    State.reset.params.ok = true ∧ State.reset.regsWf ∧ (header 6).mlen = 6 ∧
    (0 : Word).toNat + (10 : Word).toNat ≤ State.reset.params.n ∧
    (10 : Word).toNat + (0 : Word).toNat ≤ State.reset.params.n := by decide

/-- The last register and the first offset beyond it; a frame one byte short with a consistent length,
and one of the right size with an inconsistent length. -/
theorem witness_WsrStoresOneRegister :
    (header 6).mlen = 6 ∧ (9 : Word).toNat < State.reset.params.n ∧
    State.reset.params.n ≤ (10 : Word).toNat ∧
    (WriteSinglePdu.badSize [0, 0, 0]).size ≠ 4 ∧
    (header 7).mlen.toNat ≠ 2 + (WriteSinglePdu.fields 0 2).size := by decide

/-- V-WMR-1's fields, and the empty write at `a = N` (V-WMR-6). -/
theorem witness_WmrStoresTheSliceAtOnce :
    State.reset.regsWf ∧
    ((header 13).mlen.toNat = 7 + [(0x12 : Byte), 0x34, 0xAB, 0xCD, 0x00, 0x01].length ∧
      (6 : Byte).toNat = 2 * (3 : Word).toNat ∧
      [(0x12 : Byte), 0x34, 0xAB, 0xCD, 0x00, 0x01].length = (6 : Byte).toNat ∧
      (4 : Word).toNat + (3 : Word).toNat ≤ State.reset.params.n) ∧
    ((header 7).mlen.toNat = 7 + ([] : List Byte).length ∧
      (0 : Byte).toNat = 2 * (0 : Word).toNat ∧ ([] : List Byte).length = (0 : Byte).toNat ∧
      (10 : Word).toNat + (0 : Word).toNat ≤ State.reset.params.n) := by decide

/-- One witness for each way a size check fails (V-RHR-9, V-RHR-11, V-WMR-7, V-WMR-4, V-WMR-5). -/
theorem witness_SizeFaultsAnswerIllegalDataValue :
    (ReadPdu.badSize [0, 0, 0]).size ≠ 4 ∧
    (header 7).mlen.toNat ≠ 2 + (ReadPdu.fields 0 1).size ∧
    (WriteMultiplePdu.short [0, 4, 0, 1]).size < 5 ∧
    (header 6).mlen.toNat ≠ 2 + (WriteMultiplePdu.fields 4 1 2 [0, 1]).size ∧
    (3 : Byte).toNat ≠ 2 * (2 : Word).toNat ∧
    [(0 : Byte), 1].length ≠ (4 : Byte).toNat := by decide

/-- V-RHR-8 and V-WMR-3. -/
theorem witness_AddressFaultsAnswerIllegalDataAddress :
    State.reset.params.n < (0 : Word).toNat + (11 : Word).toNat ∧
    State.reset.params.n < (8 : Word).toNat + (3 : Word).toNat ∧ (header 6).mlen = 6 ∧
    (header 13).mlen.toNat = 7 + [(0 : Byte), 1, 0, 2, 0, 3].length ∧
    (6 : Byte).toNat = 2 * (3 : Word).toNat ∧
    [(0 : Byte), 1, 0, 2, 0, 3].length = (6 : Byte).toNat := by decide

theorem witness_CountsAbove127AreMalformed : 128 ≤ (128 : Word).toNat := by decide

/-- A well-sized request, two values for one register, and two data lists of one length. -/
theorem witness_NoValueIsRefused :
    (∃ t, (Instr.wsr (header 6) (.fields 0 77)).wellSized = true ∧
      exec (.wsr (header 6) (.fields 0 77)) State.reset = .next t) ∧
    (∃ t u, exec (.wsr (header 6) (.fields 0 0)) State.reset = .next t ∧
      exec (.wsr (header 6) (.fields 0 77)) State.reset = .next u) ∧
    (∃ t u, [(0 : Byte), 0].length = [(0xFF : Byte), 0xFF].length ∧
      exec (.wmr (header 9) (.fields 0 1 2 [0, 0])) State.reset = .next t ∧
      exec (.wmr (header 9) (.fields 0 1 2 [0xFF, 0xFF])) State.reset = .next u) :=
  ⟨⟨_, rfl, rfl⟩, ⟨_, _, rfl, rfl⟩, _, _, rfl, rfl, rfl⟩

/-- A store with an address, and an instruction with none. -/
theorem witness_InstructionFrame :
    State.reset.regsWf ∧
    (∃ t, exec (.wsr (header 6) (.fields 9 7)) State.reset = .next t ∧
      (Instr.wsr (header 6) (.fields 9 7)).access = some (9, 1)) ∧
    (∃ t, exec (.illegal (header 6) 4 []) State.reset = .next t ∧
      (Instr.illegal (header 6) 4 []).stores = false ∧
      (Instr.illegal (header 6) 4 []).access = none) :=
  ⟨by decide, ⟨_, rfl, rfl⟩, _, rfl, rfl, rfl⟩

theorem witness_FailedSendRollsNothingBack :
    ∃ t, exec (.wsr (header 6) (.fields 9 7)) { State.reset with sendOk := true } = .next t ∧
      DiagEvent.sendFailed ∉ State.reset.diag := ⟨_, rfl, by decide⟩

theorem witness_RequestsAreIdempotent :
    ∃ t u, State.reset.regsWf ∧ exec (.wsr (header 6) (.fields 9 7)) State.reset = .next t ∧
      exec (.wsr (header 6) (.fields 9 7)) t = .next u := ⟨_, _, by decide, rfl, rfl⟩

theorem witness_OneRegisterWmrWritesLikeWsr :
    ∃ t u, (header 9).mlen = 9 ∧ (header 6).mlen = 6 ∧
      exec (.wmr (header 9) (.fields 3 1 2 [0, 0xFF])) State.reset = .next t ∧
      exec (.wsr (header 6) (.fields 3 (be16 0 0xFF))) State.reset = .next u :=
  ⟨_, _, rfl, rfl, rfl, rfl⟩

/-- V-RHR-1 and the same request with transaction id 0xBEEF and unit id 0xFF. -/
theorem witness_IdsAreOnlyEchoed :
    let b₂ : List Byte := [0xBE, 0xEF, 0x00, 0x00, 0x00, 0x06, 0xFF, 0x03, 0x00, 0x00, 0x00, 0x04]
    ∃ t u f₁ f₂, decode readFrame = .instr (.rhr ⟨1, 6, 1⟩ (.fields 0 4)) ∧
      decode b₂ = .instr (.rhr ⟨0xBEEF, 6, 0xFF⟩ (.fields 0 4)) ∧
      (readFrame.drop 2).take 4 = (b₂.drop 2).take 4 ∧ readFrame.drop 7 = b₂.drop 7 ∧
      exec (.rhr ⟨1, 6, 1⟩ (.fields 0 4)) State.reset = .next t ∧
      exec (.rhr ⟨0xBEEF, 6, 0xFF⟩ (.fields 0 4)) State.reset = .next u ∧
      t.tx = some f₁ ∧ u.tx = some f₂ :=
  ⟨_, _, _, _, by decide, by decide, rfl, rfl, rfl, rfl, rfl, rfl⟩

/-- With RX_MAX = 12: one byte more, and exactly 12. -/
theorem witness_OversizeInputIsDiscardedWhole :
    let s := { withParams 10 12 with script := [.service (readFrame ++ [0]) true] }
    let s' := { withParams 10 12 with script := [.service readFrame true] }
    (s.params.ok = true ∧ s.script = .service (readFrame ++ [0]) true :: [] ∧
      s.params.rxMax < (readFrame ++ [0]).length) ∧
    (s'.params.ok = true ∧ s'.script = .service readFrame true :: [] ∧
      readFrame.length ≤ s'.params.rxMax) := by decide

/-- Nothing pending, an oversize input, no client, a client that is gone, and an empty script. -/
theorem witness_NothingReceivedHasNoEffect :
    let oversize := { withParams 10 12 with script := [.service (readFrame ++ [0]) true] }
    let gone := { peerClose (withClient []) with script := [.session readFrame true] }
    (State.reset.params.ok = true ∧ State.reset.script = []) ∧
    (withScript [.service [] true]).script = .service [] true :: [] ∧
    (oversize.params.ok = true ∧ oversize.script = .service (readFrame ++ [0]) true :: [] ∧
      oversize.params.rxMax < (readFrame ++ [0]).length) ∧
    ((withScript [.session readFrame true]).script = .session readFrame true :: [] ∧
      (withScript [.session readFrame true]).agents.conn ≠ .connected) ∧
    (gone.params.ok = true ∧ gone.script = .session readFrame true :: [] ∧
      gone.agents.peerGone = true) := by decide

theorem witness_ServiceCycleFollowsTheProcedure :
    (withScript [.service writeFrame true]).params.ok = true ∧
    (withScript [.service writeFrame true]).regsWf ∧
    (withScript [.service writeFrame true]).script = .service writeFrame true :: [] := by decide

theorem witness_SilentExactlyOnDrops :
    ∃ t, (withScript [.service readFrame true]).script = .service readFrame true :: [] ∧
      step (withScript [.service readFrame true]) = .next t := ⟨_, rfl, rfl⟩

/-- Two states that differ in a buffer and in the agents. -/
theorem witness_NoStateLeaksIntoResponses :
    ∃ s' t', (withScript [.service readFrame true]).params
        = { withClient [.service readFrame false] with rx := [1, 2] }.params ∧
      (withScript [.service readFrame true]).regs
        = { withClient [.service readFrame false] with rx := [1, 2] }.regs ∧
      (withScript [.service readFrame true]).script = .service readFrame true :: [] ∧
      { withClient [.service readFrame false] with rx := [1, 2] }.script
        = .service readFrame false :: [] ∧
      step (withScript [.service readFrame true]) = .next s' ∧
      step { withClient [.service readFrame false] with rx := [1, 2] } = .next t' :=
  ⟨_, _, rfl, rfl, rfl, rfl, rfl, rfl⟩

/-- V-RHR-2 answers with function code 0x83; a write follows it. -/
theorem witness_FailedRequestLeavesNoTrace :
    let s := withScript [.service failingFrame true, .service writeFrame true]
    ∃ t t' u, s.script = .service failingFrame true :: .service writeFrame true :: [] ∧
      step s = .next t ∧
      (∀ f fc, t.tx = some f → f[7]? = some fc → 0x80 ≤ fc.toNat) ∧
      step t = .next t' ∧
      step { s with script := .service writeFrame true :: [] } = .next u := by
  refine ⟨_, _, _, rfl, rfl, ?_, rfl, rfl⟩
  intro f fc hf hfc
  have hf' : f = [0x00, 0x02, 0x00, 0x00, 0x00, 0x03, 0x01, 0x83, 0x02] :=
    (Option.some.inj hf).symm
  subst hf'
  have hfc' : fc = 0x83 := (Option.some.inj hfc).symm
  subst hfc'
  decide

/-- A piece of 7 bytes, a piece of 11, and one byte too many. -/
theorem witness_SplitAndJoinedFramesExecuteNothing :
    let i : Instr := .wsr (header 6) (.fields 9 7)
    State.reset.params.ok = true ∧ i.wellSized = true ∧
    (7 < (encode i).length ∧
      (withScript [.service ((encode i).take 7) true]).script
        = .service ((encode i).take 7) true :: []) ∧
    (11 < (encode i).length ∧ 8 ≤ 11 ∧ 11 ≤ State.reset.params.rxMax ∧
      (withScript [.service ((encode i).take 11) true]).script
        = .service ((encode i).take 11) true :: []) ∧
    ([(0 : Byte)] ≠ [] ∧ (encode i ++ [0]).length ≤ State.reset.params.rxMax ∧
      (withScript [.service (encode i ++ [0]) true]).script
        = .service (encode i ++ [0]) true :: []) := by decide

theorem witness_WireWriteThenReadReturnsTheData :
    let w : Instr := .wmr (header 9) (.fields 3 1 2 [0, 0xFF])
    let r : Instr := .rhr (header 6) (.fields 3 1)
    let s := withScript [.service (encode w) true, .service (encode r) true]
    ∃ t u, s.regsWf ∧ (header 9).mlen.toNat = 7 + [(0 : Byte), 0xFF].length ∧
      (2 : Byte).toNat = 2 * (1 : Word).toNat ∧ [(0 : Byte), 0xFF].length = (2 : Byte).toNat ∧
      (header 6).mlen = 6 ∧ (3 : Word).toNat + (1 : Word).toNat ≤ s.params.n ∧
      13 + [(0 : Byte), 0xFF].length ≤ s.params.rxMax ∧
      s.script = .service (encode w) true :: .service (encode r) true :: [] ∧
      step s = .next t ∧ step t = .next u :=
  ⟨_, _, by decide, rfl, rfl, rfl, rfl, by decide, by decide, rfl, rfl, rfl⟩

/-- A request that changes register 9; a local write and a reset that do. -/
theorem witness_OnlyWritesAndResetChangeRegisters :
    (∃ t, (withScript [.service writeFrame true]).Inv ∧
      step (withScript [.service writeFrame true]) = .next t ∧
      t.regs[9]? ≠ (withScript [.service writeFrame true]).regs[9]?) ∧
    (∃ t, (withScript [.localWrite 9 1 [7]]).Inv ∧
      step (withScript [.localWrite 9 1 [7]]) = .next t ∧
      t.regs[9]? ≠ (withScript [.localWrite 9 1 [7]]).regs[9]?) ∧
    (∃ t, (withRegister 9 7 [.reset]).Inv ∧ step (withRegister 9 7 [.reset]) = .next t ∧
      t.regs[9]? ≠ (withRegister 9 7 [.reset]).regs[9]?) :=
  ⟨⟨_, by decide, rfl, by decide⟩, ⟨_, by decide, rfl, by decide⟩, _, by decide, rfl, by decide⟩

/-- At the clock values 1000 and 999. -/
theorem witness_CounterAgentAddsOneEverySecond :
    4 ≤ State.reset.params.n ∧ State.reset.params.counterCatchUp = false ∧
    State.reset.regs[3]? = some 0 ∧ State.reset.agents.lastFire + 1000 ≤ 1000 ∧
    999 < State.reset.agents.lastFire + 1000 := by decide

/-- Off, an unknown mode, On, and Blink on both sides of the deadline; an interval of 0 with the deadline
ahead, under both values of the parameter of log 19. -/
theorem witness_LedAgentFollowsTheModeRegister :
    let s := fun mode => withRegister 0 mode []
    let late := { s 3 with agents := { State.reset.agents with deadline := 200 } }
    let zero := { late with regs := late.regs.set 1 0 }
    let atOnce := { zero with params := { zero.params with blinkZeroAtOnce := true } }
    (zero.regs[0]? = some 3 ∧ zero.regs[1]? = some 0 ∧ 199 < zero.agents.deadline ∧
      zero.params.blinkZeroAtOnce = false) ∧
    (4 ≤ atOnce.params.n ∧ atOnce.regs[0]? = some 3 ∧ atOnce.regs[1]? = some 0 ∧
      199 < atOnce.agents.deadline ∧ atOnce.params.blinkZeroAtOnce = true) ∧
    4 ≤ (s 1).params.n ∧ (s 1).regs[0]? = some 1 ∧ (s 1).regs[1]? = some 250 ∧
    (s 77).regs[0]? = some 77 ∧ (s 2).regs[0]? = some 2 ∧ (s 3).regs[0]? = some 3 ∧
    (s 3).agents.deadline ≤ 0 ∧ late.regs[0]? = some 3 ∧ 199 < late.agents.deadline ∧
    (ledTick 0 (s 2)).agents.ledOut ≠ (s 2).agents.ledOut ∧
    (ledTick 0 (s 1)).agents.ledOut = (s 1).agents.ledOut ∧
    (s 1).params.ledMirrorAlways = false := by decide

theorem witness_TickRunsServiceCounterLed :
    ∃ t, (withClient [.tick readFrame true 1000]).script = .tick readFrame true 1000 :: [] ∧
      step (withClient [.tick readFrame true 1000]) = .next t := ⟨_, rfl, rfl⟩

/-- Accept, peer close, session and tick, with a live client, with none and with one that is gone. -/
theorem witness_AcceptKeepsALiveClient :
    let none' := withScript [.accept true]
    let gone := fun m => { peerClose (withClient []) with script := [m] }
    none'.params.ok = true ∧
    (none'.script = .accept true :: [] ∧ none'.agents.conn ≠ .connected) ∧
    ((withClient [.accept true]).script = .accept true :: [] ∧
      (withClient [.accept true]).agents.conn = .connected ∧
      (withClient [.accept true]).agents.peerGone = false) ∧
    ((gone (.accept false)).params.ok = true ∧ (gone (.accept false)).script = .accept false :: [] ∧
      (gone (.accept false)).agents.peerGone = true) ∧
    ((withClient [.peerClose]).script = .peerClose :: [] ∧
      (withClient [.peerClose]).agents.conn = .connected) ∧
    ((withClient [.session readFrame true]).script = .session readFrame true :: [] ∧
      (withClient [.session readFrame true]).agents.conn = .connected) ∧
    ((gone (.session readFrame true)).script = .session readFrame true :: [] ∧
      (gone (.session readFrame true)).agents.conn = .connected ∧
      (gone (.session readFrame true)).agents.peerGone = true) ∧
    ((gone (.tick readFrame true 0)).script = .tick readFrame true 0 :: [] ∧
      (gone (.tick readFrame true 0)).agents.peerGone = true) := by decide

theorem witness_ReconnectingKeepsTheRegisters :
    let s := withClient [.peerClose, .accept true, .session readFrame true]
    ∃ a b c d, s.script = .peerClose :: .accept true :: .session readFrame true :: [] ∧
      step s = .next a ∧ step a = .next b ∧ step b = .next c ∧
      step { s with script := .service readFrame true :: [] } = .next d :=
  ⟨_, _, _, _, rfl, rfl, rfl, rfl, rfl⟩

/-- Three periods and a bit have passed, with register 3 at 65535; and the last instant before one. -/
theorem witness_CounterAgentCatchesUpEveryPeriod :
    let s := { withRegister 3 65535 [] with
      params := { Params.reference with counterCatchUp := true } }
    4 ≤ s.params.n ∧ s.params.counterCatchUp = true ∧ s.regs[3]? = some 65535 ∧
    s.agents.lastFire + 1000 ≤ 3500 ∧ 999 < s.agents.lastFire + 1000 := by decide

/-- Trailing pieces of a `WSR`: 7 bytes; 11 bytes that spell function code 0; 8 bytes that spell another
protocol. A trailing piece of a `WMR` whose data spells a read of the wrong size. -/
theorem witness_TrailingPieceIsJudgedOnItsOwn :
    let i : Instr := .wsr (header 6) (.fields 9 7)
    let w : Instr := .wmr (header 15) (.fields 0 4 8 [0, 1, 0, 0, 0, 9, 1, 3])
    let moves := fun (x : Instr) (k : Nat) => [Move.service ((encode x).drop k) true]
    State.reset.params.ok = true ∧ i.wellSized = true ∧ w.wellSized = true ∧
    (5 < (encode i).length ∧ (encode i).length ≤ 5 + State.reset.params.rxMax ∧
      (encode i).length < 5 + 8 ∧ (withScript (moves i 5)).script = moves i 5) ∧
    (1 < (encode i).length ∧ decode ((encode i).drop 1) = .instr (.illegal ⟨0x0100, 0x0601, 6⟩ 0
      [9, 0, 7])) ∧
    (decode ((encode i).drop 4) = .rejected .badProtocol ∧ i.functionCode ≠ 0x10) ∧
    (13 < (encode w).length ∧ decode ((encode w).drop 13)
      = .instr (.rhr ⟨1, 9, 1⟩ (.badSize []))) := by decide

end Sys2Proof.Tests
end

section
/-! The statements of 00_scope.md: what a step answers (R12, R187), what it keeps (R13), what is refused
(R4, R13) and the byte order of a field (R8). -/

namespace Sys2Proof.Machine

/-! ## The parameters and the script under each move -/

@[simp] theorem localWrite_params (a n : Word) (vs : List Word) (s : State) :
    (localWrite a n vs s).params = s.params := by
  rcases memWrite_cases s a n vs with ⟨_, e⟩ | ⟨_, e⟩ <;> simp only [localWrite, e]

@[simp] theorem localWrite_script (a n : Word) (vs : List Word) (s : State) :
    (localWrite a n vs s).script = s.script := by
  rcases memWrite_cases s a n vs with ⟨_, e⟩ | ⟨_, e⟩ <;> simp only [localWrite, e]

@[simp] theorem counterTick_params (now : Nat) (s : State) :
    (counterTick now s).params = s.params := by
  rcases counterTick_cases now s with e | ⟨_, _, _, _, e, _⟩ <;> rw [e]

@[simp] theorem counterTick_script (now : Nat) (s : State) :
    (counterTick now s).script = s.script := by
  rcases counterTick_cases now s with e | ⟨_, _, _, _, e, _⟩ <;> rw [e]

@[simp] theorem ledTick_params (now : Nat) (s : State) : (ledTick now s).params = s.params := by
  rcases ledTick_cases now s with e | ⟨_, _, _, e, _⟩ <;> rw [e]

@[simp] theorem ledTick_script (now : Nat) (s : State) : (ledTick now s).script = s.script := by
  rcases ledTick_cases now s with e | ⟨_, _, _, e, _⟩ <;> rw [e]

/-- The outcome is a next state with the parameters and the script of `s`. -/
def Advances (s : State) (r : Result) : Prop :=
  ∃ t, r = .next t ∧ t.params = s.params ∧ t.script = s.script

theorem advances_next {s t : State} (hp : t.params = s.params) (hs : t.script = s.script) :
    Advances s (.next t) := ⟨t, rfl, hp, hs⟩

theorem exec_advances (i : Instr) (s : State) : Advances s (exec i s) := by
  obtain ⟨t, ht⟩ := exec_total i s
  obtain ⟨hp, _, _, _, _, hs⟩ := exec_keeps ht
  exact ⟨t, ht, hp, hs⟩

theorem serveBuffer_advances (s : State) : Advances s (serveBuffer s) := by
  rcases serveBuffer_cases s with ⟨r, _, e⟩ | ⟨i, _, e⟩ <;> rw [e]
  · exact advances_next (dropFrame_params s r) (dropFrame_script s r)
  · exact exec_advances i s

/-- Receiving first changes neither field, so `serveBuffer_advances` carries over to the cycle. -/
theorem serviceCycle_advances (pending : List Byte) (sendOk : Bool) (s : State) :
    Advances s (serviceCycle pending sendOk s) :=
  serveBuffer_advances (receive pending sendOk s)

theorem sessionCycle_advances (pending : List Byte) (sendOk : Bool) (s : State) :
    Advances s (sessionCycle pending sendOk s) := by
  cases h : s.agents.live
  · rw [sessionCycle_of_not_live pending sendOk h]
    exact advances_next rfl rfl
  · rw [sessionCycle, if_pos h]
    exact serviceCycle_advances pending sendOk s

theorem tickLoop_advances (pending : List Byte) (sendOk : Bool) (now : Nat) (s : State) :
    Advances s (tickLoop pending sendOk now s) := by
  obtain ⟨t, ht, hp, hs⟩ := sessionCycle_advances pending sendOk s
  simp only [tickLoop, ht]
  exact advances_next (by simp [hp]) (by simp [hs])

/-- Every well-formed move answers a next state and keeps the parameters and the rest of the script
(R12, R13). -/
theorem runMove_advances {m : Move} (s : State) (h : m.wellFormed = true) :
    Advances s (runMove m s) := by
  cases m with
  | service pending sendOk => exact serviceCycle_advances pending sendOk s
  | localRead a n => exact advances_next (localRead_params s a n) (localRead_script s a n)
  | localWrite a n vs =>
    have hlen : vs.length = n.toNat := by simpa [Move.wellFormed] using h
    rw [runMove, if_pos hlen]
    exact advances_next (localWrite_params a n vs s) (localWrite_script a n vs s)
  | reset => exact advances_next (resetMachine_params s) (resetMachine_script s)
  | session pending sendOk => exact sessionCycle_advances pending sendOk s
  | counter now => exact advances_next (counterTick_params now s) (counterTick_script now s)
  | led now => exact advances_next (ledTick_params now s) (ledTick_script now s)
  | tick pending sendOk now => exact tickLoop_advances pending sendOk now s
  | accept success =>
    exact advances_next (acceptIfNeeded_params s success) (acceptIfNeeded_script s success)
  | peerClose => exact advances_next (peerClose_params s) (peerClose_script s)

/-- The only moves that are refused are the local writes of the wrong length (log 13). -/
theorem runMove_of_not_wellFormed {m : Move} (s : State) (h : m.wellFormed = false) :
    runMove m s = .refused .illFormedLocalWrite := by
  cases m with
  | localWrite a n vs =>
    have hlen : vs.length ≠ n.toNat := by simpa [Move.wellFormed] using h
    rw [runMove, if_neg hlen]
  | _ => cases h

/-- A move that answers a next state keeps the parameters and the rest of the script. -/
theorem runMove_keeps {m : Move} {s t : State} (h : runMove m s = .next t) :
    t.params = s.params ∧ t.script = s.script := by
  cases hm : m.wellFormed
  · rw [runMove_of_not_wellFormed s hm] at h
    cases h
  · obtain ⟨t', ht', hkeeps⟩ := runMove_advances s hm
    rw [ht'] at h
    cases h
    exact hkeeps

/-! ## The next move and legal parameters -/

theorem nextMove_snd (s : State) : (nextMove s).2 = s.script.tail := by
  unfold nextMove
  cases s.script <;> rfl

/-- The move of an empty script is an idle service cycle, which is well formed (log 1). -/
theorem nextMove_wellFormed {s : State} (h : s.script.all Move.wellFormed = true) :
    (nextMove s).1.wellFormed = true := by
  unfold nextMove
  cases hs : s.script with
  | nil => rfl
  | cons m rest =>
    rw [hs, List.all_cons, Bool.and_eq_true] at h
    exact h.1

theorem params_ok_iff (p : Params) : p.ok = true ↔ 4 ≤ p.n ∧ p.n ≤ 125 ∧ 12 ≤ p.rxMax := by
  simp [Params.ok, and_assoc]

theorem step_of_not_ok {s : State} (h : ¬ s.params.ok = true) :
    step s = .refused .badParameters := by
  rw [step, if_neg h]

/-! ## The obligations -/

/-- Settles O6: the next move of the script is well formed, and a well-formed move answers. -/
theorem noStepIsEverStuck : Obligations.NoStepIsEverStuck := by
  intro s hok hscript
  rw [step_of_ok hok]
  obtain ⟨t, ht, _⟩ := runMove_advances (openPorts { s with script := (nextMove s).2 })
    (nextMove_wellFormed hscript)
  exact ⟨t, ht⟩

/-- Settles O9: the move runs with the rest of the script already in place, and keeps it. -/
theorem stepsKeepTheParameters : Obligations.StepsKeepTheParameters := by
  intro s t h
  rw [step_of_ok (ok_of_step_next h)] at h
  obtain ⟨hparams, hscript⟩ := runMove_keeps h
  exact ⟨hparams, hscript.trans (nextMove_snd s)⟩

/-- Settles O7: the parameters are checked first; an ill-formed local write is refused by its move. -/
theorem illegalChoicesAreRefused : Obligations.IllegalChoicesAreRefused := by
  refine ⟨fun s hbad => step_of_not_ok ?_, fun s a n vs rest hok hscript hlen => ?_⟩
  · rw [params_ok_iff]
    omega
  · rw [step_of_cons hok hscript]
    exact runMove_of_not_wellFormed _ (by simpa [Move.wellFormed] using hlen)

/-- Settles O15, from the field laws of the decoder. -/
theorem fieldsAreBigEndian : Obligations.FieldsAreBigEndian :=
  ⟨fun hi lo => ⟨be16_toNat hi lo, bytes16_be16 hi lo⟩,
    fun v => ⟨v.extractLsb' 8 8, v.extractLsb' 0 8, rfl, be16_bytes16 v⟩⟩

end Sys2Proof.Machine
end

section
/-! The statements of 10_state.md: the registers after reset (R36), what may change one (R20, R21, R26,
R27), what a response depends on (R31), the local port (R34), and the invariant every step keeps. -/

namespace Sys2Proof.Machine

/-! ## The frame the decoder read (R81, R82) -/

theorem decodeFunction_functionCode (h : Header) (fc : Byte) (rest : List Byte) :
    (decodeFunction h fc rest).functionCode = fc := by
  unfold decodeFunction
  split_ifs with h3 h6 h16
  · exact h3.symm
  · exact h6.symm
  · exact h16.symm
  · rfl

/-- A decoded frame has its eight first bytes; the instruction keeps those that a response repeats. -/
theorem decode_eq_instr {b : List Byte} {i : Instr} (hd : decode b = .instr i) :
    ∃ t0 t1 p0 p1 l0 l1 u rest,
      b = t0 :: t1 :: p0 :: p1 :: l0 :: l1 :: u :: i.functionCode :: rest ∧
      i.header = ⟨be16 t0 t1, be16 l0 l1, u⟩ := by
  rcases Nat.lt_or_ge b.length 8 with hlt | hge
  · rw [decode_short b hlt] at hd
    cases hd
  · obtain ⟨t0, t1, p0, p1, l0, l1, u, fc, rest, rfl⟩ := exists_eight b hge
    rw [decode_frame] at hd
    split at hd
    · cases hd
      exact ⟨t0, t1, p0, p1, l0, l1, u, rest, by rw [decodeFunction_functionCode],
        decodeFunction_header _ _ _⟩
    · cases hd

/-! ## Responses (R120, R165) -/

/-- `f` is a response to `i` in a block of `n` registers: the header of R165 with the transaction and
unit id of the request, its function code with or without the high bit, one byte, and at most `2n`
more. -/
def RespondsTo (n : Nat) (i : Instr) (f : List Byte) : Prop :=
  ∃ fc x rest, f = responseHeader i.header.tid i.header.uid (2 + rest.length) ++ fc :: x :: rest ∧
    rest.length ≤ 2 * n ∧ (fc = i.functionCode ∨ fc = i.functionCode ||| 0x80)

theorem responseShape_of_respondsTo {n : Nat} {i : Instr} {f : List Byte} (h : RespondsTo n i f)
    (hn : n ≤ 125) : responseShape n f = true := by
  obtain ⟨fc, x, rest, rfl, hlen, _⟩ := h
  rw [responseHeader_eq _ _ _ (by omega)]
  simp only [List.cons_append, List.nil_append, responseShape, BitVec.toNat_ofNat, beq_self_eq_true,
    Bool.true_and, Bool.and_eq_true, beq_iff_eq, decide_eq_true_eq]
  omega

theorem answers_of_respondsTo {n : Nat} {i : Instr} {b f : List Byte} (h : RespondsTo n i f)
    (hn : n ≤ 125) (hd : decode b = .instr i) : answers b f = true := by
  obtain ⟨fc, x, rest, rfl, hlen, hfc⟩ := h
  obtain ⟨t0, t1, p0, p1, l0, l1, u, tail, rfl, hh⟩ := decode_eq_instr hd
  rw [responseHeader_eq _ _ _ (by omega), hh]
  simpa [answers, high_be16, low_be16] using hfc

theorem respondsTo_exception (n : Nat) (i : Instr) (e : ModbusException) :
    RespondsTo n i (encodeException i.header.tid i.header.uid i.functionCode e) :=
  ⟨_, _, [], rfl, Nat.zero_le _, .inr rfl⟩

theorem respondsTo_readResponse {n : Nat} {r : List Word} (h : Header) (a c : Word)
    (hr : r.length ≤ n) :
    RespondsTo n (.rhr h (.fields a c)) (encodeReadResponse h.tid h.uid r) := by
  refine ⟨fcRead, BitVec.ofNat 8 (2 * r.length), r.flatMap bytes16, ?_, ?_, .inl rfl⟩
  · rw [flatMap_bytes16_length, encodeReadResponse, List.append_assoc]
    rfl
  · rw [flatMap_bytes16_length]
    omega

/-- What an instruction hands to send is a response to it. -/
theorem exec_respondsTo {i : Instr} {s t : State} (hn : 4 ≤ s.params.n) (hs : s.regsWf)
    (h : exec i s = .next t) : ∃ f, t.tx = some f ∧ RespondsTo s.params.n i f := by
  rcases exec_cases i s with ⟨_, e⟩ | ⟨_, _, e⟩ | ⟨_, _, e⟩ | ⟨h', a, n, rfl, _, hr, e⟩ |
      ⟨h', a, v, rfl, _, _, e⟩ | ⟨h', a, n, k, d, rfl, _, _, _, _, e⟩ <;>
    (rw [e] at h; cases h)
  · exact ⟨_, raise_tx .., respondsTo_exception _ i _⟩
  · exact ⟨_, raise_tx .., respondsTo_exception _ i _⟩
  · exact ⟨_, raise_tx .., respondsTo_exception _ i _⟩
  · have hlen := readSlice_length s.regs a.toNat n.toNat (by rw [hs]; exact hr)
    exact ⟨_, respond_tx .., respondsTo_readResponse h' a n (by omega)⟩
  · exact ⟨_, respond_tx .., _, _, [_, _, _], rfl, by simp; omega, .inl rfl⟩
  · exact ⟨_, respond_tx .., _, _, [_, _, _], rfl, by simp; omega, .inl rfl⟩

/-! ## Stores (R21, R217) -/

/-- An instruction leaves the register file alone, or is a well-sized store in range and writes the
slice it names. -/
theorem exec_regs_cases {i : Instr} {s t : State} (h : exec i s = .next t) :
    t.regs = s.regs ∨ ∃ a vs, i.stores = true ∧ i.wellSized = true ∧
      i.access = some (a, vs.length) ∧ a + vs.length ≤ s.params.n ∧
      t.regs = writeSlice s.regs a vs := by
  rcases exec_cases i s with ⟨_, e⟩ | ⟨_, _, e⟩ | ⟨_, _, e⟩ | ⟨h', a, n, rfl, _, _, e⟩ |
      ⟨h', a, v, rfl, hm, hr, e⟩ | ⟨h', a, n, k, d, rfl, hm, hk, hd, hr, e⟩ <;>
    (rw [e] at h; cases h)
  · exact .inl (raise_regs ..)
  · exact .inl (raise_regs ..)
  · exact .inl (raise_regs ..)
  · exact .inl (respond_regs ..)
  · exact .inr ⟨a.toNat, [v], rfl, by simp [Instr.wellSized, hm], rfl, hr, by
      rw [respond_regs, writeSlice_single]⟩
  · have hlen : (dataWords d).length = n.toNat := by rw [dataWords_length]; omega
    exact .inr ⟨a.toNat, dataWords d, rfl, by simp [Instr.wellSized, hm, hk, hd],
      by rw [hlen]; rfl, by rw [hlen]; exact hr, respond_regs ..⟩

/-- The file keeps its length (R20). -/
theorem exec_regs_length {i : Instr} {s t : State} (h : exec i s = .next t) :
    t.regs.length = s.regs.length := by
  rcases exec_regs_cases h with e | ⟨a, vs, _, _, _, _, e⟩ <;> rw [e]
  exact writeSlice_length ..

/-- A register that a slice write changes is one of the slice (R56). -/
theorem mem_range_of_writeSlice_ne {x : List Word} {a j : Nat} {vs : List Word}
    (h : a + vs.length ≤ x.length) (hj : (writeSlice x a vs)[j]? ≠ x[j]?) :
    a ≤ j ∧ j < a + vs.length := by
  by_contra hout
  exact hj (by rw [writeSlice_getElem? x a vs j h, if_neg hout])

/-! ## The service cycle -/

theorem receive_rx (pending : List Byte) (sendOk : Bool) (s : State) :
    (receive pending sendOk s).rx = if pending.length ≤ s.params.rxMax then pending else [] := rfl

/-- The registers after, and the response of, a service cycle that receives `b`: functions of N, the
register file and `b` alone (R31, R171). -/
def cycleOutcome (n : Nat) (x : List Word) (b : List Byte) : List Word × Option (List Byte) :=
  match decode b with
  | .rejected _ => (x, none)
  | .instr i => (execRegs n x i, some (execFrame n x i))

theorem serveBuffer_outcome {s t : State} (htx : s.tx = none) (h : serveBuffer s = .next t) :
    (t.regs, t.tx) = cycleOutcome s.params.n s.regs s.rx := by
  rcases serveBuffer_cases s with ⟨r, hd, e⟩ | ⟨i, hd, e⟩ <;> rw [e] at h
  · cases h
    simp [cycleOutcome, hd, htx]
  · obtain ⟨hregs, hframe⟩ := exec_regs_tx h
    simp [cycleOutcome, hd, hregs, hframe]

/-- The bytes received are all that is pending, or none (R111). -/
theorem serviceCycle_outcome {pending : List Byte} {sendOk : Bool} {s t : State} (htx : s.tx = none)
    (h : serviceCycle pending sendOk s = .next t) :
    (t.regs, t.tx) = cycleOutcome s.params.n s.regs
      (if pending.length ≤ s.params.rxMax then pending else []) :=
  serveBuffer_outcome (s := receive pending sendOk s) htx h

/-- The bytes `b` are a well-sized write request in range that covers register `j`, and they fit the
receive buffer (R21, R217). -/
def CoveringRequest (p : Params) (b : List Byte) (j : Nat) : Prop :=
  ∃ i a n, b.length ≤ p.rxMax ∧ decode b = .instr i ∧ i.stores = true ∧ i.wellSized = true ∧
    i.access = some (a, n) ∧ a ≤ j ∧ j < a + n ∧ a + n ≤ p.n

/-- Bytes that hold an instruction were all received (R111). -/
theorem received_of_decode {pending : List Byte} {sendOk : Bool} {s : State} {i : Instr}
    (hd : decode (receive pending sendOk s).rx = .instr i) :
    pending.length ≤ s.params.rxMax ∧ decode pending = .instr i := by
  rw [receive_rx] at hd
  split at hd
  · exact ⟨‹_›, hd⟩
  · cases hd

theorem serviceCycle_changes {pending : List Byte} {sendOk : Bool} {s t : State} {j : Nat}
    (hs : s.regsWf) (h : serviceCycle pending sendOk s = .next t) (hj : t.regs[j]? ≠ s.regs[j]?) :
    CoveringRequest s.params pending j := by
  rcases serveBuffer_cases (receive pending sendOk s) with ⟨r, _, e⟩ | ⟨i, hd, e⟩ <;>
    rw [serviceCycle, e] at h
  · cases h
    simp at hj
  · obtain ⟨hlen, hd⟩ := received_of_decode hd
    rcases exec_regs_cases h with e' | ⟨a, vs, hst, hsz, hacc, hr, e'⟩ <;> rw [e'] at hj
    · exact absurd rfl hj
    · obtain ⟨hlo, hhi⟩ := mem_range_of_writeSlice_ne (by rw [receive_regs, hs]; exact hr) hj
      exact ⟨i, a, vs.length, hlen, hd, hst, hsz, hacc, hlo, hhi, hr⟩

theorem sessionCycle_changes {pending : List Byte} {sendOk : Bool} {s t : State} {j : Nat}
    (hs : s.regsWf) (h : sessionCycle pending sendOk s = .next t) (hj : t.regs[j]? ≠ s.regs[j]?) :
    CoveringRequest s.params (if s.agents.live then pending else []) j := by
  cases hl : s.agents.live
  · rw [sessionCycle_of_not_live pending sendOk hl] at h
    cases h
    exact absurd rfl hj
  · rw [sessionCycle, if_pos hl] at h
    rw [if_pos rfl]
    exact serviceCycle_changes hs h hj

/-! ## The agents' registers (R26, R27) -/

theorem counterTick_getElem?_ne (now : Nat) (s : State) {j : Nat} (hj : j ≠ 3) :
    (counterTick now s).regs[j]? = s.regs[j]? := by
  rcases counterTick_cases now s with e | ⟨v, k, regs, _, e, rfl | rfl⟩ <;> rw [e]
  exact List.getElem?_set_ne (Ne.symm hj)

theorem ledTick_getElem?_ne (now : Nat) (s : State) {j : Nat} (hj : j ≠ 2) :
    (ledTick now s).regs[j]? = s.regs[j]? := by
  rcases ledTick_cases now s with e | ⟨out, deadline, regs, e, rfl | rfl⟩ <;> rw [e]
  exact List.getElem?_set_ne (Ne.symm hj)

/-- A Tick Loop iteration is its service cycle, then the counter, then the LED (R190). -/
theorem tickLoop_eq_next {pending : List Byte} {sendOk : Bool} {now : Nat} {s t : State}
    (h : tickLoop pending sendOk now s = .next t) :
    ∃ u, sessionCycle pending sendOk s = .next u ∧ t = ledTick now (counterTick now u) := by
  unfold tickLoop at h
  split at h
  · cases h
    exact ⟨_, ‹_›, rfl⟩
  · cases h
  · cases h

/-! ## The local port (R34) -/

theorem localWrite_cases (a n : Word) (vs : List Word) (s : State) :
    (a.toNat + n.toNat ≤ s.params.n ∧ localWrite a n vs s =
      { s with regs := writeSlice s.regs a.toNat vs, loc := some .ok }) ∨
    (s.params.n < a.toNat + n.toNat ∧
      localWrite a n vs s = { s with loc := some .outOfRange }) := by
  rcases memWrite_cases s a n vs with ⟨hr, e⟩ | ⟨hr, e⟩
  · exact .inl ⟨hr, by rw [localWrite, e]⟩
  · exact .inr ⟨hr, by rw [localWrite, e]⟩

theorem runMove_localWrite_eq_next {a n : Word} {vs : List Word} {s t : State}
    (h : runMove (.localWrite a n vs) s = .next t) :
    vs.length = n.toNat ∧ t = localWrite a n vs s := by
  by_cases hlen : vs.length = n.toNat
  · rw [runMove, if_pos hlen] at h
    cases h
    exact ⟨hlen, rfl⟩
  · rw [runMove, if_neg hlen] at h
    cases h

theorem localWrite_changes {a n : Word} {vs : List Word} {s : State} {j : Nat} (hs : s.regsWf)
    (hlen : vs.length = n.toNat) (hj : (localWrite a n vs s).regs[j]? ≠ s.regs[j]?) :
    a.toNat ≤ j ∧ j < a.toNat + n.toNat ∧ a.toNat + n.toNat ≤ s.params.n := by
  rcases localWrite_cases a n vs s with ⟨hr, e⟩ | ⟨_, e⟩ <;> rw [e] at hj
  · rw [← hlen] at hr ⊢
    obtain ⟨hlo, hhi⟩ := mem_range_of_writeSlice_ne (by rw [hs]; exact hr) hj
    exact ⟨hlo, hhi, hr⟩
  · exact absurd rfl hj

/-- What changes a register other than those of the counter and the LED agent, move by move. -/
theorem runMove_changes {m : Move} {s t : State} {j : Nat} (hs : s.regsWf)
    (h : runMove m s = .next t) (h2 : j ≠ 2) (h3 : j ≠ 3) (hj : t.regs[j]? ≠ s.regs[j]?) :
    m = .reset ∨
    (∃ a n vs, m = .localWrite a n vs ∧ a.toNat ≤ j ∧ j < a.toNat + n.toNat ∧
      a.toNat + n.toNat ≤ s.params.n) ∨
    (∃ b, m.received s.agents = some b ∧ CoveringRequest s.params b j) := by
  cases m with
  | reset => exact .inl rfl
  | localWrite a n vs =>
    obtain ⟨hlen, rfl⟩ := runMove_localWrite_eq_next h
    exact .inr (.inl ⟨a, n, vs, rfl, localWrite_changes hs hlen hj⟩)
  | service pending sendOk => exact .inr (.inr ⟨_, rfl, serviceCycle_changes hs h hj⟩)
  | session pending sendOk => exact .inr (.inr ⟨_, rfl, sessionCycle_changes hs h hj⟩)
  | tick pending sendOk now =>
    obtain ⟨u, hu, rfl⟩ := tickLoop_eq_next h
    rw [ledTick_getElem?_ne now _ h2, counterTick_getElem?_ne now _ h3] at hj
    exact .inr (.inr ⟨_, rfl, sessionCycle_changes hs hu hj⟩)
  | counter now => cases h; exact absurd (counterTick_getElem?_ne now s h3) hj
  | led now => cases h; exact absurd (ledTick_getElem?_ne now s h2) hj
  | localRead a n => cases h; exact absurd (by rw [localRead_regs]) hj
  | accept success => cases h; exact absurd (by rw [acceptIfNeeded_regs]) hj
  | peerClose => cases h; exact absurd (by rw [peerClose_regs]) hj

/-- Settles O45: the step runs the head of the script, and it starts from the same registers. -/
theorem onlyWritesAndResetChangeRegisters : Obligations.OnlyWritesAndResetChangeRegisters := by
  intro s t m rest j ⟨hok, hs, _⟩ hscript hstep h2 h3 hj
  rw [step_of_cons hok hscript] at hstep
  have hregs : (openPorts { s with script := rest }).regsWf := hs
  rcases runMove_changes hregs hstep h2 h3 hj with hreset | hwrite | ⟨b, hb, i, a, n, hreq⟩
  · exact .inl hreset
  · exact .inr (.inl hwrite)
  · exact .inr (.inr ⟨b, i, a, n, hb, hreq⟩)

/-! ## The invariant -/

/-- An operation that leaves the parameters, the buffer and the transmit port alone keeps the
invariant, if the register file keeps its length and the agents end in a legal state. -/
theorem inv_of_ports_kept {s t : State} (hs : s.Inv) (hp : t.params = s.params)
    (hr : t.regs.length = s.regs.length) (hrx : t.rx = s.rx) (htx : t.tx = s.tx)
    (hg : t.agents.wf) : t.Inv := by
  obtain ⟨hok, hregs, hlen, hwf, _⟩ := hs
  refine ⟨by rwa [hp], ?_, by rwa [hp, hrx], ?_, hg⟩
  · rw [State.regsWf, hr, hp]
    exact hregs
  · rw [State.txWf, htx, hp, hrx]
    exact hwf

theorem inv_openPorts {s : State} (hs : s.Inv) (rest : List Move) :
    (openPorts { s with script := rest }).Inv := by
  obtain ⟨hok, hregs, hlen, _, hg⟩ := hs
  exact ⟨hok, hregs, hlen, rfl, hg⟩

theorem inv_localWrite {s : State} (hs : s.Inv) (a n : Word) (vs : List Word) :
    (localWrite a n vs s).Inv := by
  have ⟨_, _, _, _, hg⟩ := hs
  rcases localWrite_cases a n vs s with ⟨_, e⟩ | ⟨_, e⟩ <;> rw [e]
  · exact inv_of_ports_kept hs rfl (writeSlice_length ..) rfl rfl hg
  · exact inv_of_ports_kept hs rfl rfl rfl rfl hg

theorem inv_counterTick {s : State} (hs : s.Inv) (now : Nat) : (counterTick now s).Inv := by
  have ⟨_, _, _, _, hg⟩ := hs
  rcases counterTick_cases now s with e | ⟨v, k, regs, _, e, hregs⟩ <;> rw [e]
  · exact hs
  · refine inv_of_ports_kept hs rfl ?_ rfl rfl hg
    rcases hregs with rfl | rfl <;> simp

theorem inv_ledTick {s : State} (hs : s.Inv) (now : Nat) : (ledTick now s).Inv := by
  have ⟨_, _, _, _, hg⟩ := hs
  rcases ledTick_cases now s with e | ⟨out, deadline, regs, e, hregs⟩ <;> rw [e]
  · exact hs
  · refine inv_of_ports_kept hs rfl ?_ rfl rfl hg
    rcases hregs with rfl | rfl <;> simp

theorem acceptIfNeeded_agents_wf (success : Bool) {s : State} (hg : s.agents.wf) :
    (acceptIfNeeded success s).agents.wf := by
  rw [acceptIfNeeded_eq]
  split
  · exact hg
  · cases success <;> simp [Agents.wf]

theorem peerClose_agents_wf {s : State} (hg : s.agents.wf) : (peerClose s).agents.wf := by
  cases hl : s.agents.live
  · simpa [peerClose, hl] using hg
  · simp [peerClose, hl, Agents.wf, ((live_iff _).mp hl).1]

theorem resetRegs_length {p : Params} (h : p.ok = true) : (resetRegs p).length = p.n := by
  obtain ⟨hn, _, _⟩ := (params_ok_iff p).mp h
  simp [resetRegs]
  omega

theorem inv_resetMachine {s : State} (hok : s.params.ok = true) : (resetMachine s).Inv :=
  ⟨hok, resetRegs_length hok, Nat.zero_le _, rfl, by simp [resetAgents, Agents.wf]⟩

/-- What the parser makes of the buffer keeps the invariant: dropped bytes leave the ports as they
were, an instruction hands over a response to the bytes in the buffer. -/
theorem inv_serveBuffer {s t : State} (hs : s.Inv) (h : serveBuffer s = .next t) : t.Inv := by
  have ⟨hok, hregs, hlen, _, hg⟩ := hs
  obtain ⟨hn4, hn125, _⟩ := (params_ok_iff _).mp hok
  rcases serveBuffer_cases s with ⟨r, _, e⟩ | ⟨i, hd, e⟩ <;> rw [e] at h
  · cases h
    exact inv_of_ports_kept hs (by simp) (by simp) (by simp) (by simp) (by simpa using hg)
  · obtain ⟨hp, hrx, _, _, hagents, _⟩ := exec_keeps h
    obtain ⟨f, hf, hresp⟩ := exec_respondsTo hn4 hregs h
    refine ⟨by rwa [hp], ?_, by rwa [hp, hrx], ?_, by rwa [hagents]⟩
    · rw [State.regsWf, exec_regs_length h, hp]
      exact hregs
    · rw [State.txWf, hf, hp, hrx, Option.all_some, responseShape_of_respondsTo hresp hn125,
        answers_of_respondsTo hresp hn125 hd]
      rfl

/-- A service cycle with nothing on the transmit port keeps the invariant (R110, R120). -/
theorem inv_serviceCycle {pending : List Byte} {sendOk : Bool} {s t : State} (hs : s.Inv)
    (htx : s.tx = none) (h : serviceCycle pending sendOk s = .next t) : t.Inv := by
  obtain ⟨hok, hregs, _, _, hg⟩ := hs
  refine inv_serveBuffer (s := receive pending sendOk s) ⟨hok, hregs, ?_, ?_, hg⟩ h
  · rw [receive_rx]
    split
    · assumption
    · exact Nat.zero_le _
  · rw [State.txWf, receive_tx, htx]
    rfl

theorem inv_sessionCycle {pending : List Byte} {sendOk : Bool} {s t : State} (hs : s.Inv)
    (htx : s.tx = none) (h : sessionCycle pending sendOk s = .next t) : t.Inv := by
  cases hl : s.agents.live
  · rw [sessionCycle_of_not_live pending sendOk hl] at h
    cases h
    obtain ⟨hok, hregs, _, _, _⟩ := hs
    exact ⟨hok, hregs, Nat.zero_le _, by rw [State.txWf, htx]; rfl, by simp [Agents.wf]⟩
  · rw [sessionCycle, if_pos hl] at h
    exact inv_serviceCycle hs htx h

/-- Every move keeps the invariant, from a state with nothing on the transmit port. -/
theorem inv_runMove {m : Move} {s t : State} (hs : s.Inv) (htx : s.tx = none)
    (h : runMove m s = .next t) : t.Inv := by
  have ⟨hok, _, _, _, hg⟩ := hs
  cases m with
  | service pending sendOk => exact inv_serviceCycle hs htx h
  | session pending sendOk => exact inv_sessionCycle hs htx h
  | tick pending sendOk now =>
    obtain ⟨u, hu, rfl⟩ := tickLoop_eq_next h
    exact inv_ledTick (inv_counterTick (inv_sessionCycle hs htx hu) now) now
  | localRead a n =>
    cases h
    exact inv_of_ports_kept hs (by simp) (by simp) (by simp) (by simp) (by simpa using hg)
  | localWrite a n vs =>
    obtain ⟨_, rfl⟩ := runMove_localWrite_eq_next h
    exact inv_localWrite hs a n vs
  | reset => cases h; exact inv_resetMachine hok
  | counter now => cases h; exact inv_counterTick hs now
  | led now => cases h; exact inv_ledTick hs now
  | accept success =>
    cases h
    exact inv_of_ports_kept hs (by simp) (by simp) (by simp) (by simp)
      (acceptIfNeeded_agents_wf _ hg)
  | peerClose =>
    cases h
    exact inv_of_ports_kept hs (by simp) (by simp) (by simp) (by simp) (peerClose_agents_wf hg)

/-- Settles O8: opening the ports empties the transmit port, and every move keeps the invariant. -/
theorem everyStepKeepsTheInvariant : Obligations.EveryStepKeepsTheInvariant := by
  intro s t hs h
  rw [step_of_ok (ok_of_step_next h)] at h
  exact inv_runMove (inv_openPorts hs _) rfl h

/-! ## Responses, reset and the local port -/

/-- Settles O41: the outcome of a cycle is a function of N, the registers and the bytes received. -/
theorem noStateLeaksIntoResponses : Obligations.NoStateLeaksIntoResponses := by
  intro s t s' t' pending ok ok' rest rest' hparams hregs hs ht hstep hstep'
  rw [step_of_cons (ok_of_step_next hstep) hs] at hstep
  rw [step_of_cons (ok_of_step_next hstep') ht] at hstep'
  have hout : (s'.regs, s'.tx) = cycleOutcome s.params.n s.regs
    (if pending.length ≤ s.params.rxMax then pending else []) :=
      serviceCycle_outcome (s := openPorts { s with script := rest }) rfl hstep
  have hout' : (t'.regs, t'.tx) = cycleOutcome t.params.n t.regs
    (if pending.length ≤ t.params.rxMax then pending else []) :=
      serviceCycle_outcome (s := openPorts { t with script := rest' }) rfl hstep'
  rw [hparams, hregs] at hout
  obtain ⟨hr, hf⟩ := Prod.mk.inj (hout.trans hout'.symm)
  exact ⟨hf, hr⟩

theorem resetRegs_getElem?_spare (p : Params) {i : Nat} (h4 : 4 ≤ i) (hi : i < p.n) :
    (resetRegs p)[i]? = some p.resetSpare := by
  rw [resetRegs, List.getElem?_append_right h4]
  exact List.getElem?_replicate_of_lt (by simp; omega)

/-- A service cycle overwrites both buffers before it reads them (R31). -/
theorem runMove_service_buffers (s : State) (pending received : List Byte) (ok : Bool)
    (sent : Option (List Byte)) :
    runMove (.service pending ok) (openPorts { s with rx := received, tx := sent }) =
      runMove (.service pending ok) (openPorts s) := rfl

/-- Settles O1: the file register by register; the two buffers are overwritten by the cycle. -/
theorem resetLoadsTheRegisterFile : Obligations.ResetLoadsTheRegisterFile := by
  refine ⟨by decide, fun p hok => ?_, fun p pending received sent ok rest => ?_⟩
  · exact ⟨resetRegs_length hok, rfl, rfl, rfl, rfl,
      fun i h4 hi => resetRegs_getElem?_spare p h4 hi⟩
  · by_cases hok : p.ok = true
    · rw [step_of_cons hok rfl, step_of_cons hok rfl]
      exact runMove_service_buffers { State.resetWith p with script := rest } pending received ok
        sent
    · rw [step_of_not_ok hok, step_of_not_ok hok]

/-- The accessor checks and writes the register file alone, whatever the ports hold. -/
theorem memWrite_openPorts (s : State) (rest : List Move) (a n : Word) (vs : List Word) :
    memWrite (openPorts { s with script := rest }) a n vs =
      (memWrite s a n vs).map fun u => openPorts { u with script := rest } := by
  rcases memWrite_cases s a n vs with ⟨hr, e⟩ | ⟨hr, e⟩ <;> rw [e]
  · exact if_pos ((inRange_iff _ _ _).mpr hr)
  · exact if_neg fun h => absurd ((inRange_iff _ _ _).mp h) (Nat.not_le.mpr hr)

/-- Settles O21: one step runs the accessor with the ports opened, which makes no difference to it. -/
theorem localPortUsesTheSameAccessors : Obligations.LocalPortUsesTheSameAccessors := by
  intro s a n vs rest hok
  refine ⟨fun hs => ?_, fun hs hlen => ?_⟩ <;> rw [step_of_cons hok hs]
  · refine ⟨_, rfl, localRead_regs .., localRead_tx .., ?_⟩
    have hread : memRead (openPorts { s with script := rest }) a n = memRead s a n := rfl
    rw [localRead, hread]
    cases memRead s a n with
    | none => rfl
    | some r => rfl
  · rw [runMove, if_pos hlen, localWrite, memWrite_openPorts]
    cases memWrite s a n vs with
    | none => exact ⟨_, rfl, rfl, rfl, rfl⟩
    | some u => exact ⟨_, rfl, rfl, rfl, rfl⟩

end Sys2Proof.Machine
end

section
/-! The statements of 20_memory.md: the bound check (R54), the two accessors (R55, R56), failed accesses
(R57), the round trip on the local port and on the wire (R58), and the frame of every instruction. -/

namespace Sys2Proof.Machine

/-! ## The accessors (R54 to R58) -/

theorem inRange_eq_false_iff (N : Nat) (a n : Word) :
    inRange N a n = false ↔ N < a.toNat + n.toNat := by
  rw [Bool.eq_false_iff, ne_eq, inRange_iff, Nat.not_le]

/-- The local port's read changes nothing but the port's result (R34, R55). -/
theorem localRead_cases (s : State) (a n : Word) :
    (a.toNat + n.toNat ≤ s.params.n ∧ localRead a n s =
      { s with loc := some (.values (readSlice s.regs a.toNat n.toNat)) }) ∨
    (s.params.n < a.toNat + n.toNat ∧ localRead a n s = { s with loc := some .outOfRange }) := by
  rcases memRead_cases s a n with ⟨hr, e⟩ | ⟨hr, e⟩
  · exact .inl ⟨hr, by rw [localRead, e]⟩
  · exact .inr ⟨hr, by rw [localRead, e]⟩

section InRange

variable {s : State} {a n : Word} (hr : a.toNat + n.toNat ≤ s.params.n)
include hr

theorem memRead_of_inRange : memRead s a n = some (readSlice s.regs a.toNat n.toNat) :=
  ((memRead_cases s a n).resolve_right fun h => absurd h.1 (Nat.not_lt.mpr hr)).2

theorem memWrite_of_inRange (vs : List Word) :
    memWrite s a n vs = some { s with regs := writeSlice s.regs a.toNat vs } :=
  ((memWrite_cases s a n vs).resolve_right fun h => absurd h.1 (Nat.not_lt.mpr hr)).2

theorem localRead_of_inRange :
    localRead a n s = { s with loc := some (.values (readSlice s.regs a.toNat n.toNat)) } :=
  ((localRead_cases s a n).resolve_right fun h => absurd h.1 (Nat.not_lt.mpr hr)).2

end InRange

section OutOfRange

variable {s : State} {a n : Word} (hr : s.params.n < a.toNat + n.toNat)
include hr

theorem memRead_of_outOfRange : memRead s a n = none :=
  ((memRead_cases s a n).resolve_left fun h => absurd h.1 (Nat.not_le.mpr hr)).2

theorem memWrite_of_outOfRange (vs : List Word) : memWrite s a n vs = none :=
  ((memWrite_cases s a n vs).resolve_left fun h => absurd h.1 (Nat.not_le.mpr hr)).2

theorem localRead_of_outOfRange : localRead a n s = { s with loc := some .outOfRange } :=
  ((localRead_cases s a n).resolve_left fun h => absurd h.1 (Nat.not_le.mpr hr)).2

theorem localWrite_of_outOfRange (vs : List Word) :
    localWrite a n vs s = { s with loc := some .outOfRange } :=
  ((localWrite_cases a n vs s).resolve_left fun h => absurd h.1 (Nat.not_le.mpr hr)).2

end OutOfRange

/-- A register outside the slice keeps its value (R56). -/
theorem writeSlice_getElem?_outside {x : List Word} {a j : Nat} {vs : List Word}
    (h : a + vs.length ≤ x.length) (hj : j < a ∨ a + vs.length ≤ j) :
    (writeSlice x a vs)[j]? = x[j]? := by
  rw [writeSlice_getElem? x a vs j h, if_neg (by omega)]

/-- Settles O16: the check is on the sum of the two naturals, so each consequence is linear. -/
theorem boundCheckDoesNotWrap : Obligations.BoundCheckDoesNotWrap := by
  intro N a n
  refine ⟨inRange_iff N a n, ?_, ?_, ?_, fun h => ?_, fun h => ?_⟩
  · rw [sum17_toNat, inRange_iff]
  · rintro rfl
    exact inRange_iff N a 0
  · rintro rfl
    exact inRange_iff N a 1
  · exact (inRange_eq_false_iff N a n).mpr (by omega)
  · exact (inRange_eq_false_iff N a n).mpr (by omega)

/-- Settles O17: both sides of the bound check, with the slice read element by element. -/
theorem readCopiesTheSlice : Obligations.ReadCopiesTheSlice := by
  intro s a n hs
  refine ⟨fun hr => ⟨memRead_of_outOfRange hr, localRead_of_outOfRange hr⟩, fun hr => ?_⟩
  have hlen : (readSlice s.regs a.toNat n.toNat).length = n.toNat :=
    readSlice_length _ _ _ (by rwa [hs])
  exact ⟨_, memRead_of_inRange hr, localRead_of_inRange hr, hlen,
    fun i hi => by rw [readSlice_getElem?, if_pos hi]⟩

/-- Settles O18: both sides of the bound check, with the written file read element by element. -/
theorem writeOverwritesExactlyTheSlice : Obligations.WriteOverwritesExactlyTheSlice := by
  intro s a n vs hs hvs
  refine ⟨fun hr => memWrite_of_outOfRange hr vs, fun hr => ?_⟩
  have hfit : a.toNat + vs.length ≤ s.regs.length := by rwa [hvs, hs]
  refine ⟨_, memWrite_of_inRange hr vs, rfl, writeSlice_length .., fun i hi => ?_, fun j hj => ?_⟩
  · rw [writeSlice_getElem? _ _ _ _ hfit, if_pos (by omega), Nat.add_sub_cancel_left]
  · exact writeSlice_getElem?_outside hfit (by rwa [hvs])

/-- Settles O20: the write was in range, so the read is, and a slice that was written reads back. -/
theorem writeThenReadRoundTrips : Obligations.WriteThenReadRoundTrips := by
  intro s t a n vs hs hvs h
  rcases memWrite_cases s a n vs with ⟨hr, e⟩ | ⟨_, e⟩ <;> rw [e] at h <;> cases h
  have hback : readSlice (writeSlice s.regs a.toNat vs) a.toNat n.toNat = vs := by
    rw [← hvs, readSlice_writeSlice _ _ _ (by rwa [hvs, hs])]
  rw [memRead_of_inRange (s := { s with regs := writeSlice s.regs a.toNat vs }) hr, hback]

/-! ## The frame of an instruction (R57, R184) -/

/-- An instruction changes nothing but the registers, the transmit port and the diagnostic port. -/
theorem exec_frame {i : Instr} {s t : State} (h : exec i s = .next t) :
    t = { s with regs := t.regs, tx := t.tx, diag := t.diag, diagDraws := t.diagDraws } := by
  obtain ⟨hparams, hrx, hsendOk, hloc, hagents, hscript⟩ := exec_keeps h
  rw [← hparams, ← hrx, ← hsendOk, ← hloc, ← hagents, ← hscript]

/-- A request that names registers outside the file changes none (R57). -/
theorem exec_regs_of_outOfRange {i : Instr} {s t : State} {a n : Nat} (ha : i.access = some (a, n))
    (hr : s.params.n < a + n) (h : exec i s = .next t) : t.regs = s.regs := by
  rcases exec_regs_cases h with e | ⟨b, vs, _, _, hacc, hin, _⟩
  · exact e
  · cases ha.symm.trans hacc
    exact absurd hin (Nat.not_le.mpr hr)

/-- Equal parameters and registers make a request hand over the same frame (R171). -/
theorem exec_tx_congr {i : Instr} {s s' t t' : State} (hp : s.params = s'.params)
    (hx : s.regs = s'.regs) (h : exec i s = .next t) (h' : exec i s' = .next t') : t.tx = t'.tx := by
  rw [(exec_regs_tx h).2, (exec_regs_tx h').2, hp, hx]

/-- Settles O19: out of range each port leaves the registers and N as they are, so the repetition meets
the same check and fails the same way. -/
theorem failedAccessChangesNothing : Obligations.FailedAccessChangesNothing := by
  intro s a n vs hr
  refine ⟨memRead_of_outOfRange hr, memWrite_of_outOfRange hr vs, localRead_of_outOfRange hr,
    localWrite_of_outOfRange hr vs, ?_, fun i t u ha ht hu => ?_⟩
  · have hr' : (localWrite a n vs s).params.n < a.toNat + n.toNat := by rwa [localWrite_params]
    rw [localWrite_of_outOfRange hr', localWrite_of_outOfRange hr]
  · have hp : t.params = s.params := (exec_keeps ht).1
    have hregs : t.regs = s.regs := exec_regs_of_outOfRange ha hr ht
    have hregs' : u.regs = t.regs := exec_regs_of_outOfRange ha (by rwa [hp]) hu
    exact ⟨hregs, hregs'.trans hregs, exec_tx_congr hp hregs hu ht⟩

/-- Settles O31: an instruction leaves the register file alone, or it is a store that names the slice it
writes. -/
theorem instructionFrame : Obligations.InstructionFrame := by
  intro i s t hs h
  refine ⟨exec_frame h, exec_regs_length h, ?_⟩
  rcases exec_regs_cases h with e | ⟨a, vs, hstores, _, hacc, hin, e⟩
  · exact ⟨fun _ => e, fun _ => e, fun _ _ _ j _ => by rw [e]⟩
  · refine ⟨fun hno => ?_, fun hno => ?_, fun b n hb j hj => ?_⟩
    · cases hstores.symm.trans hno
    · cases hacc.symm.trans hno
    · cases hacc.symm.trans hb
      rw [e, writeSlice_getElem?_outside (by rwa [hs]) hj]

/-! ## The round trip on the wire (R58) -/

/-- A well-formed read request decodes back (R84). -/
theorem decode_encode_rhr_fields (h : Header) (a n : Word) :
    decode (encode (.rhr h (.fields a n))) = .instr (.rhr h (.fields a n)) := by
  simp only [encode, List.append_assoc, List.cons_append, List.nil_append]
  rw [decode_encodeHeader, decodeFunction_read]
  simp [bytes16, decodeRead, be16_bytes16]

/-- A multi-register write with all its fields decodes back (R86). -/
theorem decode_encode_wmr_fields (h : Header) (a n : Word) (k : Byte) (data : List Byte) :
    decode (encode (.wmr h (.fields a n k data))) = .instr (.wmr h (.fields a n k data)) := by
  simp only [encode, List.append_assoc, List.cons_append, List.nil_append]
  rw [decode_encodeHeader, decodeFunction_writeMultiple]
  simp [bytes16, decodeWriteMultiple, be16_bytes16]

/-- A well-sized request in range fails no check (R182). -/
theorem execException_eq_none {n : Nat} {i : Instr} {a len : Nat} (hw : i.wellSized = true)
    (ha : i.access = some (a, len)) (hr : a + len ≤ n) : execException n i = none := by
  rw [execException_access (supported_of_wellSized hw) hw ha, if_neg (Nat.not_lt.mpr hr)]

/-- A step whose service cycle receives the whole of a well-sized request in range executes it: the
registers and the frame are those of R130, R140 and R141. -/
theorem step_executes {s t : State} {b : List Byte} {ok : Bool} {rest : List Move} {i : Instr}
    {a len : Nat} (hscript : s.script = .service b ok :: rest) (hb : b.length ≤ s.params.rxMax)
    (hd : decode b = .instr i) (hw : i.wellSized = true) (ha : i.access = some (a, len))
    (hr : a + len ≤ s.params.n) (h : step s = .next t) :
    t.regs = storedRegs s.regs i ∧ t.tx = some (normalFrame s.regs i) := by
  rw [step_of_cons (ok_of_step_next h) hscript] at h
  have hout : (t.regs, t.tx) = cycleOutcome s.params.n s.regs
      (if b.length ≤ s.params.rxMax then b else []) :=
    serviceCycle_outcome (s := openPorts { s with script := rest }) rfl h
  rw [if_pos hb] at hout
  simpa [cycleOutcome, hd, execRegs, execFrame, execException_eq_none hw ha hr] using hout

/-- The data of a read response are the bytes of the values read (R87). -/
theorem encodeReadResponse_drop (tid : Word) (uid : Byte) (r : List Word) :
    (encodeReadResponse tid uid r).drop 9 = r.flatMap bytes16 := rfl

/-- Settles O44: the write stores the data words, the read finds the same slice, and its response holds
the bytes of those words. -/
theorem wireWriteThenReadReturnsTheData : Obligations.WireWriteThenReadReturnsTheData := by
  intro s t u g h a n k data ok ok' rest hs hg hk hdata hh hr hrx hscript ht hu
  have hlen : (dataWords data).length = n.toNat := by rw [dataWords_length]; omega
  have hfit : a.toNat + (dataWords data).length ≤ s.regs.length := by rwa [hlen, hs]
  obtain ⟨hparams, htail⟩ := stepsKeepTheParameters s t ht
  rw [hscript, List.tail_cons] at htail
  have hwrite : t.regs = writeSlice s.regs a.toNat (dataWords data) := by
    refine (step_executes hscript ?_ (decode_encode_wmr_fields g a n k data) ?_ rfl hr ht).1
    · rw [Laws.EncodedSize.wmr, Instr.size, WriteMultiplePdu.size]
      omega
    · simp [Instr.wellSized, hg, hk, hdata]
  have hread : u.tx = some (encodeReadResponse h.tid h.uid (readSlice t.regs a.toNat n.toNat)) := by
    refine (step_executes htail ?_ (decode_encode_rhr_fields h a n) ?_ rfl (by rwa [hparams]) hu).2
    · rw [Laws.EncodedSize.rhr, Instr.size, ReadPdu.size, hparams]
      omega
    · simp [Instr.wellSized, hh]
  rw [hwrite, ← hlen, readSlice_writeSlice _ _ _ hfit] at hread
  refine ⟨_, hread, ?_, ?_⟩
  · rw [encodeReadResponse_length, hlen]
    omega
  · rw [encodeReadResponse_drop, flatMap_dataWords data (by omega)]

end Sys2Proof.Machine
end

section
/-! The statements of 30_encoding.md: decoder and encoder are inverse (R81 to R86, R91), which byte
sequences hold no instruction (R93), the words of the opcode table (R96) and frames written out byte by
byte. -/

namespace Sys2Proof.Machine

/-! ## From an instruction to its bytes and back (R81 to R86) -/

/-- A single-register write with all its fields decodes back (R85). -/
theorem decode_encode_wsr_fields (h : Header) (a v : Word) :
    decode (encode (.wsr h (.fields a v))) = .instr (.wsr h (.fields a v)) := by
  simp only [encode, List.append_assoc, List.cons_append, List.nil_append]
  rw [decode_encodeHeader, decodeFunction_writeSingle]
  simp [bytes16, decodeWriteSingle, be16_bytes16]

theorem decode_encode_rhr (h : Header) {p : ReadPdu} (hp : p.wellFormed = true) :
    decode (encode (.rhr h p)) = .instr (.rhr h p) := by
  cases p with
  | fields a n => exact decode_encode_rhr_fields h a n
  | badSize rest =>
    have hlen : rest.length ≠ 4 := by simpa [ReadPdu.wellFormed] using hp
    rw [encode, List.append_assoc, List.singleton_append, decode_encodeHeader, decodeFunction_read,
      decodeRead_badSize rest hlen]

theorem decode_encode_wsr (h : Header) {p : WriteSinglePdu} (hp : p.wellFormed = true) :
    decode (encode (.wsr h p)) = .instr (.wsr h p) := by
  cases p with
  | fields a v => exact decode_encode_wsr_fields h a v
  | badSize rest =>
    have hlen : rest.length ≠ 4 := by simpa [WriteSinglePdu.wellFormed] using hp
    rw [encode, List.append_assoc, List.singleton_append, decode_encodeHeader,
      decodeFunction_writeSingle, decodeWriteSingle_badSize rest hlen]

theorem decode_encode_wmr (h : Header) {p : WriteMultiplePdu} (hp : p.wellFormed = true) :
    decode (encode (.wmr h p)) = .instr (.wmr h p) := by
  cases p with
  | fields a n k data => exact decode_encode_wmr_fields h a n k data
  | short rest =>
    have hlen : rest.length < 5 := by simpa [WriteMultiplePdu.wellFormed] using hp
    rw [encode, List.append_assoc, List.singleton_append, decode_encodeHeader,
      decodeFunction_writeMultiple, decodeWriteMultiple_short rest hlen]

/-- An unsupported function code decodes back with whatever follows it (R91, R92). -/
theorem decode_encode_illegal (h : Header) {fc : Byte} (rest : List Byte)
    (hfc : (Instr.illegal h fc rest).wellFormed = true) :
    decode (encode (.illegal h fc rest)) = .instr (.illegal h fc rest) := by
  simp only [Instr.wellFormed, Bool.and_eq_true, bne_iff_ne] at hfc
  obtain ⟨⟨h3, h6⟩, h16⟩ := hfc
  rw [encode, List.append_assoc, List.singleton_append, decode_encodeHeader,
    decodeFunction_other h fc rest h3 h6 h16]

/-- Settles O11: one lemma per row of the opcode table. -/
theorem decodeInvertsEncode : Obligations.DecodeInvertsEncode := by
  intro i hi
  cases i with
  | rhr h p => exact decode_encode_rhr h hi
  | wsr h p => exact decode_encode_wsr h hi
  | wmr h p => exact decode_encode_wmr h hi
  | illegal h fc rest => exact decode_encode_illegal h rest hi

/-! ## From the bytes to an instruction and back (R81 to R86, R91) -/

/-- The decoder keeps every operand byte, whatever their number (R84). -/
theorem encode_rhr_decodeRead (h : Header) (rest : List Byte) :
    encode (.rhr h (decodeRead rest)) = encodeHeader h ++ fcRead :: rest := by
  unfold decodeRead
  split <;> simp [encode, bytes16_be16]

/-- The decoder keeps every operand byte, whatever their number (R85). -/
theorem encode_wsr_decodeWriteSingle (h : Header) (rest : List Byte) :
    encode (.wsr h (decodeWriteSingle rest)) = encodeHeader h ++ fcWriteSingle :: rest := by
  unfold decodeWriteSingle
  split <;> simp [encode, bytes16_be16]

/-- The decoder keeps every operand byte, whatever their number (R86). -/
theorem encode_wmr_decodeWriteMultiple (h : Header) (rest : List Byte) :
    encode (.wmr h (decodeWriteMultiple rest)) = encodeHeader h ++ fcWriteMultiple :: rest := by
  unfold decodeWriteMultiple
  split <;> simp [encode, bytes16_be16]

theorem encode_decodeFunction (h : Header) (fc : Byte) (rest : List Byte) :
    encode (decodeFunction h fc rest) = encodeHeader h ++ fc :: rest := by
  unfold decodeFunction
  split_ifs with h3 h6 h16
  · rw [h3, encode_rhr_decodeRead]
  · rw [h6, encode_wsr_decodeWriteSingle]
  · rw [h16, encode_wmr_decodeWriteMultiple]
  · simp [encode]

theorem decodeRead_wellFormed (rest : List Byte) : (decodeRead rest).wellFormed = true := by
  by_cases h4 : rest.length = 4
  · obtain ⟨a, b, c, d, rfl⟩ := List.length_eq_four.mp h4
    rfl
  · simpa [decodeRead_badSize rest h4, ReadPdu.wellFormed] using h4

theorem decodeWriteSingle_wellFormed (rest : List Byte) :
    (decodeWriteSingle rest).wellFormed = true := by
  by_cases h4 : rest.length = 4
  · obtain ⟨a, b, c, d, rfl⟩ := List.length_eq_four.mp h4
    rfl
  · simpa [decodeWriteSingle_badSize rest h4, WriteSinglePdu.wellFormed] using h4

theorem decodeWriteMultiple_wellFormed (rest : List Byte) :
    (decodeWriteMultiple rest).wellFormed = true := by
  match rest with
  | [] | [_] | [_, _] | [_, _, _] | [_, _, _, _] | _ :: _ :: _ :: _ :: _ :: _ => rfl

theorem decodeFunction_wellFormed (h : Header) (fc : Byte) (rest : List Byte) :
    (decodeFunction h fc rest).wellFormed = true := by
  unfold decodeFunction
  split_ifs with h3 h6 h16
  · exact decodeRead_wellFormed rest
  · exact decodeWriteSingle_wellFormed rest
  · exact decodeWriteMultiple_wellFormed rest
  · simpa [Instr.wellFormed, and_assoc] using ⟨h3, h6, h16⟩

/-- The header's seven bytes, from the fields the decoder assembled (R81). -/
theorem encodeHeader_be16 (t0 t1 l0 l1 u : Byte) :
    encodeHeader ⟨be16 t0 t1, be16 l0 l1, u⟩ = [t0, t1, 0, 0, l0, l1, u] := by
  have hpid : bytes16 protocolId = [0, 0] := by decide
  simp only [encodeHeader, bytes16_be16, hpid, List.cons_append, List.nil_append]

/-- What an accepted byte sequence is: an encoded header, a function code, and bytes the function code
alone dispatches (R81, R82, R116). -/
theorem decode_eq_instr_iff (b : List Byte) (i : Instr) :
    decode b = .instr i ↔
      ∃ h fc rest, b = encodeHeader h ++ fc :: rest ∧ i = decodeFunction h fc rest := by
  constructor
  · intro hd
    rcases Nat.lt_or_ge b.length 8 with hlt | hge
    · rw [decode_short b hlt] at hd
      cases hd
    · obtain ⟨t0, t1, p0, p1, l0, l1, u, fc, rest, rfl⟩ := exists_eight b hge
      rw [decode_frame] at hd
      split at hd
      next hpid =>
        obtain ⟨rfl, rfl⟩ := (be16_eq_protocolId p0 p1).mp hpid
        cases hd
        exact ⟨⟨be16 t0 t1, be16 l0 l1, u⟩, fc, rest, by rw [encodeHeader_be16]; rfl, rfl⟩
      next => cases hd
  · rintro ⟨h, fc, rest, rfl, rfl⟩
    exact decode_encodeHeader h fc rest

/-- Settles O12: encoding puts back the header, the function code and the operand bytes that the decoder
took apart. -/
theorem encodeInvertsDecode : Obligations.EncodeInvertsDecode := by
  intro b i hd
  obtain ⟨h, fc, rest, rfl, rfl⟩ := (decode_eq_instr_iff b i).mp hd
  refine ⟨encode_decodeFunction h fc rest, decodeFunction_wellFormed h fc rest, ?_⟩
  rw [decodeFunction_size, List.length_append, encodeHeader_length, List.length_cons]
  omega

/-! ## The byte sequences that hold no instruction (R93) -/

/-- Settles O13: below eight bytes only the length matters, from eight on only the protocol id. -/
theorem rejectedFramesAreTheShortAndTheForeign :
    Obligations.RejectedFramesAreTheShortAndTheForeign := by
  intro b
  rcases Nat.lt_or_ge b.length 8 with hlt | hge
  · rw [decode_short b hlt]
    by_cases hb : b = []
    · simp [hb]
    · have hpos : 1 ≤ b.length := List.length_pos_iff.mpr hb
      have h7 : b.length ≤ 7 := by omega
      simp [hb, hpos, h7, Nat.not_le.mpr hlt]
  · obtain ⟨t0, t1, p0, p1, l0, l1, u, fc, rest, rfl⟩ := exists_eight b hge
    rw [decode_frame]
    by_cases hpid : p0 = 0 ∧ p1 = 0
    · rw [if_pos ((be16_eq_protocolId p0 p1).mpr hpid)]
      simp [hpid]
    · rw [if_neg (mt (be16_eq_protocolId p0 p1).mp hpid)]
      simpa using hpid

/-! ## The words of the opcode table (R96) -/

/-- Two neighbouring bytes of a table word are a 16-bit field of it (R83, R96). -/
theorem be16_extractLsb' (w : BitVec 64) (k : Nat) :
    be16 (w.extractLsb' (k + 8) 8) (w.extractLsb' k 8) = w.extractLsb' k 16 :=
  BitVec.extractLsb'_append_extractLsb'_eq_extractLsb' rfl

/-- Decoding through the word `W` of the first eight bytes: bits 47:32 are the protocol id, bits 7:0 the
function code (R96). -/
theorem decode_matchWord (w : BitVec 64) (rest : List Byte) :
    decode ([w.extractLsb' 56 8, w.extractLsb' 48 8, w.extractLsb' 40 8, w.extractLsb' 32 8,
        w.extractLsb' 24 8, w.extractLsb' 16 8, w.extractLsb' 8 8, w.extractLsb' 0 8] ++ rest) =
      if w.extractLsb' 32 16 = 0 then
        .instr (decodeFunction ⟨w.extractLsb' 48 16, w.extractLsb' 16 16, w.extractLsb' 8 8⟩
          (w.extractLsb' 0 8) rest)
      else .rejected .badProtocol := by
  simp only [List.cons_append, List.nil_append]
  rw [decode_frame, be16_extractLsb' w 48, be16_extractLsb' w 32, be16_extractLsb' w 16]
  rfl

/-- A table word in the four parts the masks of R96 separate. -/
theorem matchWord_parts (w : BitVec 64) :
    w = w.extractLsb' 48 16 ++ w.extractLsb' 32 16 ++ w.extractLsb' 8 24 ++ w.extractLsb' 0 8 := by
  have h32 : w.extractLsb' 48 16 ++ w.extractLsb' 32 16 = w.extractLsb' 32 32 :=
    BitVec.extractLsb'_append_extractLsb'_eq_extractLsb' rfl
  have h8 : w.extractLsb' 32 32 ++ w.extractLsb' 8 24 = w.extractLsb' 8 56 :=
    BitVec.extractLsb'_append_extractLsb'_eq_extractLsb' rfl
  have h0 : w.extractLsb' 8 56 ++ w.extractLsb' 0 8 = w.extractLsb' 0 64 :=
    BitVec.extractLsb'_append_extractLsb'_eq_extractLsb' rfl
  rw [h32, h8, h0, BitVec.extractLsb'_eq_self]

/-- What the mask of `RHR`, `WSR` and `WMR` leaves of a table word: protocol id and function code. -/
theorem and_requestMask (w : BitVec 64) :
    w &&& 0x0000FFFF000000FF#64 = 0#16 ++ w.extractLsb' 32 16 ++ 0#24 ++ w.extractLsb' 0 8 := by
  have hpid (x : BitVec 16) : x &&& 65535#16 = x := BitVec.and_allOnes
  have hfc (x : Byte) : x &&& 255#8 = x := BitVec.and_allOnes
  rw [matchWord_parts (w &&& _)]
  simp [BitVec.extractLsb'_and, hpid, hfc]

/-- What the mask of `ILLEGAL` leaves of a table word: the protocol id. -/
theorem and_illegalMask (w : BitVec 64) :
    w &&& 0x0000FFFF00000000#64 = 0#16 ++ w.extractLsb' 32 16 ++ 0#24 ++ 0#8 := by
  have hpid (x : BitVec 16) : x &&& 65535#16 = x := BitVec.and_allOnes
  rw [matchWord_parts (w &&& _)]
  simp [BitVec.extractLsb'_and, hpid]

theorem bitVec_append_inj {m n : Nat} {x x' : BitVec m} {y y' : BitVec n} :
    x ++ y = x' ++ y' ↔ x = x' ∧ y = y' := by
  constructor
  · intro h
    have hl := congrArg (BitVec.extractLsb' n m) h
    have hr := congrArg (BitVec.extractLsb' 0 n) h
    rw [BitVec.extractLsb'_append_eq_left, BitVec.extractLsb'_append_eq_left] at hl
    rw [BitVec.extractLsb'_append_eq_right, BitVec.extractLsb'_append_eq_right] at hr
    exact ⟨hl, hr⟩
  · rintro ⟨rfl, rfl⟩
    rfl

/-- A masked table word is fixed by its protocol id and its function code (R96). -/
theorem matchWord_inj (pid pid' : BitVec 16) (fc fc' : Byte) :
    0#16 ++ pid ++ 0#24 ++ fc = 0#16 ++ pid' ++ 0#24 ++ fc' ↔ pid = pid' ∧ fc = fc' := by
  rw [bitVec_append_inj, bitVec_append_inj, bitVec_append_inj]
  simp

/-- The mask of `RHR`, `WSR` and `WMR` tests the protocol id and the function code (R96). -/
theorem and_requestMask_eq_iff (w : BitVec 64) (k : Byte) :
    w &&& 0x0000FFFF000000FF#64 = 0#16 ++ 0#16 ++ 0#24 ++ k ↔
      w.extractLsb' 32 16 = 0 ∧ w.extractLsb' 0 8 = k := by
  rw [and_requestMask]
  exact matchWord_inj _ _ _ _

/-- The mask of `ILLEGAL` tests the protocol id alone (R96). -/
theorem and_illegalMask_eq_zero_iff (w : BitVec 64) :
    w &&& 0x0000FFFF00000000#64 = 0 ↔ w.extractLsb' 32 16 = 0 := by
  rw [and_illegalMask]
  exact (matchWord_inj _ 0 0 0).trans (and_iff_left rfl)

/-- Settles O14: the masks give the protocol id and the function code, which the decoder dispatches. -/
theorem matchWordsSelectTheirRows : Obligations.MatchWordsSelectTheirRows := by
  intro w rest b h hb hh
  have hrow : ∀ k : Byte, w &&& 0x0000FFFF000000FF#64 = 0#16 ++ 0#16 ++ 0#24 ++ k →
      decode b = .instr (decodeFunction h k rest) := by
    intro k hk
    obtain ⟨hpid, hfc⟩ := (and_requestMask_eq_iff w k).mp hk
    rw [hb, hh, decode_matchWord, if_pos hpid, hfc]
  refine ⟨fun h3 => ⟨_, hrow fcRead h3⟩, fun h6 => ⟨_, hrow fcWriteSingle h6⟩,
    fun h16 => ⟨_, hrow fcWriteMultiple h16⟩, fun h0 h3 h6 h16 => ?_, fun h0 => ?_⟩
  · have hpid := (and_illegalMask_eq_zero_iff w).mp h0
    have hfc : ∀ k : Byte, w &&& 0x0000FFFF000000FF#64 ≠ 0#16 ++ 0#16 ++ 0#24 ++ k →
        w.extractLsb' 0 8 ≠ k :=
      fun k hne hk => hne ((and_requestMask_eq_iff w k).mpr ⟨hpid, hk⟩)
    rw [hb, hh, decode_matchWord, if_pos hpid,
      decodeFunction_other _ _ _ (hfc _ h3) (hfc _ h6) (hfc _ h16)]
  · rw [hb, decode_matchWord, if_neg (mt (and_illegalMask_eq_zero_iff w).mpr h0)]

/-! ## The step that runs a placed table word (R96, log 12) -/

/-- A step whose service cycle receives all of a frame runs the instruction it holds (R110, R116). -/
theorem step_service_of_decode {s : State} {b : List Byte} {ok : Bool} {rest : List Move} {i : Instr}
    (hok : s.params.ok = true) (hscript : s.script = .service b ok :: rest)
    (hb : b.length ≤ s.params.rxMax) (hd : decode b = .instr i) :
    step s = exec i { s with
      script := rest, rx := b, sendOk := ok, tx := none, diag := [], loc := none } := by
  have hrx : receive b ok (openPorts { s with script := rest }) = { s with
      script := rest, rx := b, sendOk := ok, tx := none, diag := [], loc := none } := by
    simp [receive, openPorts, hb]
  rw [step_of_cons hok hscript, runMove, serviceCycle, hrx, serveBuffer]
  simp only [hd]

theorem decodeTableWord_eq_some_iff (nbits w : Nat) (i : Instr) :
    decodeTableWord nbits w = some i ↔ decode (tableFrame nbits w) = .instr i := by
  cases hd : decode (tableFrame nbits w) <;> simp [decodeTableWord, hd]

/-- Settles O5: the placed frame is the next move, and the service cycle runs what it decodes to. -/
theorem placedTableWordRunsNext : Obligations.PlacedTableWordRunsNext := by
  intro s nbits w i hok hlen hi
  exact step_service_of_decode (s := s.withFetchWord nbits w) hok rfl hlen
    ((decodeTableWord_eq_some_iff nbits w i).mp hi)

/-! ## Frames written out byte by byte (R81 to R91) -/

/-- Settles O10: five closed frames, evaluated. -/
theorem writtenOutFramesDecode : Obligations.WrittenOutFramesDecode := by
  unfold Obligations.WrittenOutFramesDecode
  decide

end Sys2Proof.Machine
end

section
/-! The statements of 40_frame_parser.md: what a service cycle receives (R111, R112) and drops (R113,
R115, R120), size faults (R117), the answer to every request (R116), and the send (R119). -/

namespace Sys2Proof.Machine

/-! ## A service cycle as a step (R110 to R112) -/

/-- The bytes a cycle with `pending` waiting receives: all of them, or none (R111). -/
def receivedBytes (p : Params) (pending : List Byte) : List Byte :=
  if pending.length ≤ p.rxMax then pending else []

theorem receivedBytes_of_le {p : Params} {b : List Byte} (h : b.length ≤ p.rxMax) :
    receivedBytes p b = b := if_pos h

theorem receivedBytes_of_lt {p : Params} {b : List Byte} (h : p.rxMax < b.length) :
    receivedBytes p b = [] := if_neg (Nat.not_le.mpr h)

/-- The parser leaves the buffer and the answer to the send as they are. -/
theorem serveBuffer_keeps_ports {s t : State} (h : serveBuffer s = .next t) :
    t.rx = s.rx ∧ t.sendOk = s.sendOk := by
  rcases serveBuffer_cases s with ⟨r, _, e⟩ | ⟨i, _, e⟩ <;> rw [e] at h
  · cases h
    exact ⟨dropFrame_rx s r, dropFrame_sendOk s r⟩
  · obtain ⟨_, hrx, hok, _⟩ := exec_keeps h
    exact ⟨hrx, hok⟩

/-- What a step that is a service cycle ends with: the outcome of the bytes received, which stay in the
buffer, the answer to the send, and the rest of the script. -/
theorem step_service {s : State} {pending : List Byte} {ok : Bool} {rest : List Move}
    (hok : s.params.ok = true) (hscript : s.script = .service pending ok :: rest) :
    ∃ t, step s = .next t ∧
      (t.regs, t.tx) = cycleOutcome s.params.n s.regs (receivedBytes s.params pending) ∧
      t.rx = receivedBytes s.params pending ∧ t.sendOk = ok ∧ t.script = rest := by
  rw [step_of_cons hok hscript]
  obtain ⟨t, ht, _, hrest⟩ := serviceCycle_advances pending ok (openPorts { s with script := rest })
  obtain ⟨hrx, hsend⟩ := serveBuffer_keeps_ports ht
  have hout := serviceCycle_outcome (s := openPorts { s with script := rest }) rfl ht
  exact ⟨t, ht, hout, hrx, hsend, hrest⟩

theorem cycleOutcome_of_rejected {n : Nat} {x : List Word} {b : List Byte} {r : Reject}
    (hd : decode b = .rejected r) : cycleOutcome n x b = (x, none) := by
  simp only [cycleOutcome, hd]

theorem cycleOutcome_of_instr {n : Nat} {x : List Word} {b : List Byte} {i : Instr}
    (hd : decode b = .instr i) :
    cycleOutcome n x b = (execRegs n x i, some (execFrame n x i)) := by
  simp only [cycleOutcome, hd]

/-- A cycle behind the Connection Manager with a live client is the block's own cycle (R193). -/
theorem step_session_of_live {s : State} {pending : List Byte} {ok : Bool} {rest : List Move}
    (hok : s.params.ok = true) (hscript : s.script = .session pending ok :: rest)
    (hlive : s.agents.live = true) :
    step s = step { s with script := .service pending ok :: rest } := by
  rw [step_of_cons hok hscript,
    step_of_cons (s := { s with script := .service pending ok :: rest }) hok rfl]
  exact if_pos hlive

/-- A service cycle that receives nothing changes no port and no register (R112). -/
theorem serveBuffer_of_empty {s : State} (h : s.rx = []) : serveBuffer s = .next s := by
  rw [serveBuffer, h]
  rfl

theorem receive_rx_eq_nil {pending : List Byte} {s : State} (ok : Bool)
    (h : pending = [] ∨ s.params.rxMax < pending.length) : (receive pending ok s).rx = [] := by
  rcases h with rfl | h
  · rfl
  · exact receivedBytes_of_lt h

/-- With no move left the step is a cycle with nothing pending (R97, log 1). -/
theorem step_of_nil {s : State} (hok : s.params.ok = true) (hscript : s.script = []) :
    step s = serviceCycle [] s.sendOk (openPorts { s with script := [] }) := by
  rw [step_of_ok hok, runScript, nextMove, hscript]
  rfl

/-- Settles O4: behind the Connection Manager a live client's cycle is the block's own. -/
theorem stepRunsTheDecodedRequest : Obligations.StepRunsTheDecodedRequest := by
  intro s pending ok rest i hok hlen hd hscript
  rcases hscript with hscript | ⟨hscript, hconn, hpeer⟩
  · exact step_service_of_decode hok hscript hlen hd
  · rw [step_session_of_live hok hscript ((live_iff _).mpr ⟨hconn, hpeer⟩)]
    exact step_service_of_decode (s := { s with script := .service pending ok :: rest }) hok rfl
      hlen hd

/-- Settles O37: an oversize input leaves the empty buffer, from which nothing is decoded. -/
theorem oversizeInputIsDiscardedWhole : Obligations.OversizeInputIsDiscardedWhole := by
  intro s pending ok rest hok hscript
  obtain ⟨t, ht, hout, hrx, _, hrest⟩ := step_service hok hscript
  refine ⟨fun hlong => ⟨t, ht, ?_⟩, fun hfit => ⟨t, ht, ?_, hrest⟩⟩
  · rw [receivedBytes_of_lt hlong] at hrx hout
    obtain ⟨hregs, htx⟩ := Prod.mk.inj (hout.trans (cycleOutcome_of_rejected rfl))
    exact ⟨hrx, htx, hregs, hrest⟩
  · rw [hrx, receivedBytes_of_le hfit]

/-- Settles O38: in each case the step is a cycle on an empty buffer, which leaves the opened ports as
they are. -/
theorem nothingReceivedHasNoEffect : Obligations.NothingReceivedHasNoEffect := by
  intro s pending ok rest hok hnone
  rcases hnone with ⟨hscript, hempty⟩ | ⟨hscript, hgone⟩ | hscript
  · rw [step_of_cons hok hscript]
    have hrx := receive_rx_eq_nil (s := openPorts { s with script := rest }) ok hempty
    exact ⟨_, serveBuffer_of_empty hrx, hrx, rfl, rfl, rfl⟩
  · have hlive : s.agents.live = false := by
      rw [Bool.eq_false_iff, ne_eq, live_iff]
      rintro ⟨hconn, hpeer⟩
      rcases hgone with h | h
      · exact h hconn
      · cases hpeer.symm.trans h
    rw [step_of_cons hok hscript]
    exact ⟨_, sessionCycle_of_not_live (s := openPorts { s with script := rest }) pending ok hlive,
      rfl, rfl, rfl, rfl⟩
  · rw [step_of_nil hok hscript]
    exact ⟨_, serveBuffer_of_empty rfl, rfl, rfl, rfl, rfl⟩

/-! ## What is dropped (R112, R113, R115, R120) -/

/-- The bytes that hold an instruction: eight at least, with protocol id 0. -/
theorem exists_decode_instr_iff (b : List Byte) :
    (∃ i, decode b = .instr i) ↔ 8 ≤ b.length ∧ b[2]? = some 0 ∧ b[3]? = some 0 := by
  cases hd : decode b with
  | instr i =>
    obtain ⟨h, fc, operands, rfl, _⟩ := (decode_eq_instr_iff b i).mp hd
    have hlen : 8 ≤ (encodeHeader h ++ fc :: operands).length := by
      rw [List.length_append, encodeHeader_length, List.length_cons]
      omega
    exact iff_of_true ⟨i, rfl⟩ ⟨hlen, rfl, rfl⟩
  | rejected r =>
    refine iff_of_false (fun ⟨i, hi⟩ => by cases hi) fun ⟨h8, hpid⟩ => ?_
    obtain ⟨hempty, hrunt, hforeign⟩ := rejectedFramesAreTheShortAndTheForeign b
    cases r with
    | empty =>
      have := hempty.mp hd
      omega
    | runt =>
      have := hrunt.mp hd
      omega
    | badProtocol => exact (hforeign.mp hd).2 hpid

/-- A cycle sends nothing exactly when the bytes it received hold no instruction. -/
theorem cycleOutcome_silent_iff (n : Nat) (x : List Word) (b : List Byte) :
    (cycleOutcome n x b).2 = none ↔ ¬ ∃ i, decode b = .instr i := by
  cases hd : decode b with
  | rejected r => simp [cycleOutcome_of_rejected hd]
  | instr i => simp [cycleOutcome_of_instr hd]

/-- Settles O40: a cycle sends nothing exactly when what it received holds no instruction. -/
theorem silentExactlyOnDrops : Obligations.SilentExactlyOnDrops := by
  intro s t pending ok rest hscript hstep
  obtain ⟨t', ht', hout, _⟩ := step_service (ok_of_step_next hstep) hscript
  cases hstep.symm.trans ht'
  have htx : t.tx = (cycleOutcome _ _ _).2 := (Prod.ext_iff.mp hout).2
  rw [htx, cycleOutcome_silent_iff, exists_decode_instr_iff]
  rcases Nat.lt_or_ge s.params.rxMax pending.length with hlong | hfit
  · simp [receivedBytes_of_lt hlong, hlong]
  · rw [receivedBytes_of_le hfit, not_and_or, Nat.not_le]
    exact (or_iff_right (Nat.not_lt.mpr hfit)).symm

/-! ## Size faults (R117, R180) -/

/-- A request that fails a check takes the exception of that check (R182). -/
theorem exec_of_exception {i : Instr} {s : State} {e : ModbusException}
    (h : execException s.params.n i = some e) :
    exec i s = .next (raise e i.header i.functionCode s) := by
  rw [exec_eq]
  simp only [execFrame, execNote, execRegs, h, raise, encodeException_eq]
  cases e <;> rfl

theorem execException_of_unsupported {i : Instr} (n : Nat) (h : i.supported = false) :
    execException n i = some .illegalFunction := by
  simp [execException, h]

theorem execException_of_not_wellSized {i : Instr} (n : Nat) (hs : i.supported = true)
    (hw : i.wellSized = false) : execException n i = some .illegalDataValue := by
  simp [execException, hs, hw]

/-- A size fault is answered with code 3, and everything but the ports stays (R117, R184). -/
theorem exec_sizeFault {i : Instr} (s : State) (hs : i.supported = true)
    (hw : i.wellSized = false) :
    ∃ t, exec i s = .next t ∧ t.tx = some (exceptionBytes i.header i.functionCode 3) ∧
      t = { s with tx := t.tx, diag := t.diag, diagDraws := t.diagDraws } :=
  ⟨_, exec_of_exception (execException_of_not_wellSized _ hs hw), raise_tx_eq .., raise_frame ..⟩

/-- What a well-sized request is, row by row (R94). -/
theorem wellSized_cases {i : Instr} (hw : i.wellSized = true) :
    (∃ h a n, i = .rhr h (.fields a n) ∧ h.mlen.toNat = 6) ∨
    (∃ h a v, i = .wsr h (.fields a v) ∧ h.mlen.toNat = 6) ∨
    (∃ h a n k d, i = .wmr h (.fields a n k d) ∧ h.mlen.toNat = 7 + d.length ∧
      k.toNat = 2 * n.toNat ∧ d.length = k.toNat) := by
  cases i with
  | rhr h p =>
    cases p with
    | fields a n => exact .inl ⟨h, a, n, rfl, by simpa [Instr.wellSized] using hw⟩
    | badSize rest => cases hw
  | wsr h p =>
    cases p with
    | fields a v => exact .inr (.inl ⟨h, a, v, rfl, by simpa [Instr.wellSized] using hw⟩)
    | badSize rest => cases hw
  | wmr h p =>
    cases p with
    | fields a n k d =>
      exact .inr (.inr ⟨h, a, n, k, d, rfl, by simpa [Instr.wellSized, and_assoc] using hw⟩)
    | short rest => cases hw
  | illegal h fc rest => cases hw

/-- The size checks of R117, R130, R140 and R141 a well-sized request has passed: `mlen = L - 6`, and
`L = 12` or, for `WMR`, `L >= 13`. -/
theorem size_of_wellSized {i : Instr} (hw : i.wellSized = true) :
    i.header.mlen.toNat + 6 = i.size ∧
      (i.size = 12 ∧ i.functionCode ≠ 0x10 ∨ 13 ≤ i.size ∧ i.functionCode = 0x10) := by
  rcases wellSized_cases hw with
    ⟨h, a, n, rfl, hm⟩ | ⟨h, a, v, rfl, hm⟩ | ⟨h, a, n, k, d, rfl, hm, _⟩
  · exact ⟨congrArg (· + 6) hm, .inl ⟨rfl, fun hfc => by cases hfc⟩⟩
  · exact ⟨congrArg (· + 6) hm, .inl ⟨rfl, fun hfc => by cases hfc⟩⟩
  · simp only [Instr.header, Instr.size, WriteMultiplePdu.size]
    exact ⟨by omega, .inr ⟨by omega, rfl⟩⟩

/-- Settles O27: a request that fails a size check is not well sized. -/
theorem sizeFaultsAnswerIllegalDataValue : Obligations.SizeFaultsAnswerIllegalDataValue := by
  intro s h
  refine ⟨fun p hp => exec_sizeFault s rfl ?_, fun p hp => exec_sizeFault s rfl ?_,
    fun a n k data hk => exec_sizeFault s rfl ?_⟩ <;> rw [Bool.eq_false_iff] <;> intro hw
  · obtain ⟨hm, ⟨h12, _⟩ | ⟨_, hfc⟩⟩ := size_of_wellSized hw
    · simp only [Instr.header, Instr.size] at hm h12
      omega
    · cases hfc
  · obtain ⟨hm, ⟨_, hfc⟩ | ⟨h13, _⟩⟩ := size_of_wellSized hw
    · exact hfc rfl
    · simp only [Instr.header, Instr.size] at hm h13
      omega
  · simp only [Instr.wellSized, Bool.and_eq_true, beq_iff_eq] at hw
    omega

/-! ## Every request is answered (R116, R187) -/

/-- A request that fails no check is a well-sized one (R182). -/
theorem wellSized_of_no_exception {n : Nat} {i : Instr} (he : execException n i = none) :
    i.wellSized = true := by
  cases hs : i.supported
  · cases (execException_of_unsupported n hs).symm.trans he
  cases hw : i.wellSized
  · cases (execException_of_not_wellSized n hs hw).symm.trans he
  rfl

/-- Every answer has the nine bytes of an exception response at least (R80, R90). -/
theorem nine_le_length_execFrame (n : Nat) (x : List Word) (i : Instr) :
    9 ≤ (execFrame n x i).length := by
  unfold execFrame
  cases he : execException n i with
  | some e => exact Nat.le_refl 9
  | none =>
    rcases wellSized_cases (wellSized_of_no_exception he) with
      ⟨h, a, c, rfl, _⟩ | ⟨h, a, v, rfl, _⟩ | ⟨h, a, c, k, d, rfl, _⟩
    · simp only [normalFrame, encodeReadResponse_length, Nat.le_add_right]
    · exact (by decide : 9 ≤ 12)
    · exact (by decide : 9 ≤ 12)

/-- Settles O32: `exec` hands over one frame in every case. -/
theorem everyRequestIsAnswered : Obligations.EveryRequestIsAnswered :=
  fun i s => ⟨_, _, exec_eq i s, respond_tx .., nine_le_length_execFrame ..⟩

/-! ## The send (R119) -/

/-- The events before the send do not depend on the answer to it. -/
theorem execNote_setSendOk (i : Instr) (s : State) (ok : Bool) :
    execNote i { s with sendOk := ok } = { execNote i s with sendOk := ok } := by
  unfold execNote
  dsimp only
  split
  next e _ => cases e <;> rfl
  next => rfl

theorem sendFailed_not_mem_execNote {i : Instr} {s : State} (h : DiagEvent.sendFailed ∉ s.diag) :
    DiagEvent.sendFailed ∉ (execNote i s).diag := by
  unfold execNote
  split
  next e _ =>
    cases e with
    | illegalDataAddress => simp [exceptionDiag, h]
    | _ =>
      simp only [exceptionDiag, emitOpen]
      split <;> simp [h]
  next => exact h

/-- Settles O33: everything before the send is the same, and the send only appends its event. -/
theorem failedSendRollsNothingBack : Obligations.FailedSendRollsNothingBack := by
  intro i s t h
  rw [exec_eq, execNote_setSendOk] at h ⊢
  cases h
  simp only [respond_eq]
  refine ⟨by simp [sendDiag], fun hs => ?_⟩
  simpa [sendDiag] using sendFailed_not_mem_execNote hs

end Sys2Proof.Machine
end

section
/-! Cut and joined frames (R118), and the ids a response only echoes (R114, R116, R189). -/

namespace Sys2Proof.Machine

/-! ## Frames that take an exception -/

/-- A received request that fails a check changes no register and is answered with the code of that
check (R182). -/
theorem cycleOutcome_of_exception {n : Nat} {x : List Word} {b : List Byte} {i : Instr}
    {e : ModbusException} (hd : decode b = .instr i) (he : execException n i = some e) :
    cycleOutcome n x b = (x, some (exceptionBytes i.header i.functionCode (exceptionCode e))) := by
  simp only [cycleOutcome_of_instr hd, execRegs, execFrame, he]

/-! ## The leading piece, and more bytes than the frame (R118) -/

@[simp] theorem encode_length (i : Instr) : (encode i).length = i.size := by
  cases i with
  | rhr h p => exact Laws.EncodedSize.rhr h p
  | wsr h p => exact Laws.EncodedSize.wsr h p
  | wmr h p => exact Laws.EncodedSize.wmr h p
  | illegal h fc rest => exact Laws.EncodedSize.illegal h fc rest

/-- Every frame begins with its header and its function code (R81, R82). -/
theorem exists_encode_eq (i : Instr) : ∃ operands,
    encode i = encodeHeader i.header ++ i.functionCode :: operands ∧
      i.size = 8 + operands.length := by
  have hhead : ∃ operands, encode i = encodeHeader i.header ++ i.functionCode :: operands := by
    cases i with
    | rhr h p => cases p <;> exact ⟨_, rfl⟩
    | wsr h p => cases p <;> exact ⟨_, rfl⟩
    | wmr h p => cases p <;> exact ⟨_, rfl⟩
    | illegal h fc rest => exact ⟨_, rfl⟩
  obtain ⟨operands, he⟩ := hhead
  refine ⟨operands, he, ?_⟩
  rw [← encode_length, he, List.length_append, encodeHeader_length, List.length_cons]
  omega

theorem functionCode_of_supported {i : Instr} (h : i.supported = true) :
    i.functionCode = fcRead ∨ i.functionCode = fcWriteSingle ∨ i.functionCode = fcWriteMultiple := by
  cases i with
  | rhr => exact .inl rfl
  | wsr => exact .inr (.inl rfl)
  | wmr => exact .inr (.inr rfl)
  | illegal => cases h

theorem decodeFunction_supported (h : Header) {fc : Byte} (rest : List Byte)
    (hfc : fc = fcRead ∨ fc = fcWriteSingle ∨ fc = fcWriteMultiple) :
    (decodeFunction h fc rest).supported = true := by
  rcases hfc with rfl | rfl | rfl <;> rfl

/-- The header and the function code of a well-sized request, with another number of operand bytes after
them: the declared length disagrees with the bytes, whatever these are. -/
theorem cycleOutcome_of_otherSize {i : Instr} (hw : i.wellSized = true) (n : Nat) (x : List Word)
    {operands : List Byte} (hlen : 8 + operands.length ≠ i.size) :
    cycleOutcome n x (encodeHeader i.header ++ i.functionCode :: operands) =
      (x, some (exceptionBytes i.header i.functionCode 3)) := by
  have hbad : (decodeFunction i.header i.functionCode operands).wellSized = false := by
    rw [Bool.eq_false_iff]
    intro hj
    obtain ⟨hm, _⟩ := size_of_wellSized hw
    obtain ⟨hm', _⟩ := size_of_wellSized hj
    rw [decodeFunction_header, decodeFunction_size] at hm'
    omega
  have hsup := decodeFunction_supported i.header operands
    (functionCode_of_supported (supported_of_wellSized hw))
  rw [cycleOutcome_of_exception (decode_encodeHeader i.header i.functionCode operands)
    (execException_of_not_wellSized n hsup hbad), decodeFunction_header, decodeFunction_functionCode]
  rfl

theorem cycleOutcome_of_short (n : Nat) (x : List Word) {b : List Byte} (h : b.length < 8) :
    cycleOutcome n x b = (x, none) := cycleOutcome_of_rejected (decode_short b h)

theorem receivedBytes_length_le (p : Params) (b : List Byte) :
    (receivedBytes p b).length ≤ b.length := by
  unfold receivedBytes
  split
  · exact Nat.le_refl _
  · exact Nat.zero_le _

/-- A leading piece of eight bytes or more keeps the header and the function code. -/
theorem take_encodeHeader (h : Header) (fc : Byte) (operands : List Byte) (m : Nat) :
    (encodeHeader h ++ fc :: operands).take (m + 8) = encodeHeader h ++ fc :: operands.take m := rfl

/-- What a cycle makes of a leading piece of a well-sized request: too short, too long for the buffer,
or of another size than it declares. -/
theorem cycleOutcome_leadingPiece {i : Instr} (hw : i.wellSized = true) (p : Params) (x : List Word)
    {k : Nat} (hk : k < (encode i).length) :
    cycleOutcome p.n x (receivedBytes p ((encode i).take k)) =
      (x, if 8 ≤ k ∧ k ≤ p.rxMax then some (exceptionBytes i.header i.functionCode 3) else none) := by
  have hlen : ((encode i).take k).length = k := List.length_take_of_le (Nat.le_of_lt hk)
  rcases Nat.lt_or_ge k 8 with h8 | h8
  · rw [if_neg (by omega), cycleOutcome_of_short]
    exact Nat.lt_of_le_of_lt (receivedBytes_length_le _ _) (by omega)
  rcases Nat.lt_or_ge p.rxMax k with hrx | hrx
  · rw [if_neg (by omega), receivedBytes_of_lt (by omega), cycleOutcome_of_short]
    decide
  · obtain ⟨operands, he, hsize⟩ := exists_encode_eq i
    obtain ⟨m, rfl⟩ := Nat.exists_eq_add_of_le' h8
    rw [encode_length] at hk
    rw [if_pos ⟨h8, hrx⟩, receivedBytes_of_le (by omega), he, take_encodeHeader,
      cycleOutcome_of_otherSize hw]
    rw [List.length_take]
    omega

/-- A well-sized request with more bytes behind it is longer than it declares (R118 (b)). -/
theorem cycleOutcome_joined {i : Instr} (hw : i.wellSized = true) (n : Nat) (x : List Word)
    {more : List Byte} (hmore : more ≠ []) :
    cycleOutcome n x (encode i ++ more) =
      (x, some (exceptionBytes i.header i.functionCode 3)) := by
  obtain ⟨operands, he, hsize⟩ := exists_encode_eq i
  have hpos := List.length_pos_iff.mpr hmore
  rw [he, List.append_assoc, List.cons_append, cycleOutcome_of_otherSize hw]
  rw [List.length_append]
  omega

/-- Settles O43: each piece is received whole or not at all, and judged by its own size. -/
theorem splitAndJoinedFramesExecuteNothing : Obligations.SplitAndJoinedFramesExecuteNothing := by
  intro s i ok rest hok hw
  refine ⟨fun k hk hscript => ?_, fun more hmore hfit hscript => ?_⟩ <;>
    obtain ⟨t, ht, hout, _⟩ := step_service hok hscript <;> refine ⟨t, ht, ?_⟩
  · rw [cycleOutcome_leadingPiece hw s.params s.regs hk] at hout
    obtain ⟨hregs, htx⟩ := Prod.mk.inj hout
    refine ⟨hregs, fun h8 => ?_, fun h8 hrx => ?_⟩
    · rw [htx, if_neg (by omega)]
    · rw [htx, if_pos ⟨h8, hrx⟩]
  · rw [receivedBytes_of_le hfit, cycleOutcome_joined hw _ _ hmore] at hout
    exact Prod.mk.inj hout

/-! ## The trailing piece (R118) -/

/-- An accepted request of fewer than 12 bytes is not well sized, whatever it spells. -/
theorem not_wellSized_of_decode_short {b : List Byte} {j : Instr} (hd : decode b = .instr j)
    (hlen : b.length < 12) : j.wellSized = false := by
  rw [Bool.eq_false_iff]
  intro hj
  obtain ⟨_, _, hsize⟩ := encodeInvertsDecode b j hd
  obtain ⟨_, h⟩ := size_of_wellSized hj
  omega

/-- Settles O53: the piece is received whole; of an `RHR` or a `WSR` it has fewer than 12 bytes. -/
theorem trailingPieceIsJudgedOnItsOwn : Obligations.TrailingPieceIsJudgedOnItsOwn := by
  intro s i k ok rest hok hw hpos hk hfit hscript
  obtain ⟨t, ht, hout, _⟩ := step_service hok hscript
  have hlen : ((encode i).drop k).length = (encode i).length - k := List.length_drop
  rw [receivedBytes_of_le (by omega)] at hout
  have hdrop : ∀ r, decode ((encode i).drop k) = .rejected r → t.tx = none ∧ t.regs = s.regs :=
    fun r hd => (Prod.mk.inj (hout.trans (cycleOutcome_of_rejected hd))).symm
  have hfault : ∀ j e, decode ((encode i).drop k) = .instr j →
      execException s.params.n j = some e →
      t.tx = some (exceptionBytes j.header j.functionCode (exceptionCode e)) ∧ t.regs = s.regs :=
    fun j e hd he => (Prod.mk.inj (hout.trans (cycleOutcome_of_exception hd he))).symm
  refine ⟨t, ht, fun hshort => hdrop _ (decode_short _ (by omega)), hdrop, fun j hd =>
    ⟨fun hs => hfault j _ hd (execException_of_unsupported _ hs),
      fun hs hj => hfault j _ hd (execException_of_not_wellSized _ hs hj)⟩, fun hfc => ?_⟩
  cases hd : decode ((encode i).drop k) with
  | rejected r =>
    obtain ⟨htx, hregs⟩ := hdrop r hd
    exact ⟨hregs, fun f hf => by cases htx.symm.trans hf⟩
  | instr j =>
    obtain ⟨_, ⟨h12, _⟩ | ⟨_, h16⟩⟩ := size_of_wellSized hw
    · rw [encode_length] at hlen hk
      have hj := not_wellSized_of_decode_short hd (by omega)
      cases hs : j.supported
      · obtain ⟨htx, hregs⟩ := hfault j _ hd (execException_of_unsupported _ hs)
        exact ⟨hregs, fun f hf => ⟨j, 1, rfl, .inl rfl, Option.some.inj (hf.symm.trans htx)⟩⟩
      · obtain ⟨htx, hregs⟩ := hfault j _ hd (execException_of_not_wellSized _ hs hj)
        exact ⟨hregs, fun f hf => ⟨j, 3, rfl, .inr rfl, Option.some.inj (hf.symm.trans htx)⟩⟩
    · exact absurd h16 hfc

/-! ## Transaction id and unit id (R114, R116, R189) -/

/-- The request with another header. -/
def replaceHeader (g : Header) : Instr → Instr
  | .rhr _ p => .rhr g p
  | .wsr _ p => .wsr g p
  | .wmr _ p => .wmr g p
  | .illegal _ fc rest => .illegal g fc rest

/-- The decoder dispatches on the function code alone: another header gives the same request under that
header (R116). -/
theorem decodeFunction_replaceHeader (g h : Header) (fc : Byte) (rest : List Byte) :
    decodeFunction g fc rest = replaceHeader g (decodeFunction h fc rest) := by
  unfold decodeFunction
  split_ifs <;> rfl

theorem header_replaceHeader (g : Header) (i : Instr) : (replaceHeader g i).header = g := by
  cases i <;> rfl

theorem functionCode_replaceHeader (g : Header) (i : Instr) :
    (replaceHeader g i).functionCode = i.functionCode := by
  cases i <;> rfl

theorem storedRegs_replaceHeader (g : Header) (x : List Word) (i : Instr) :
    storedRegs x (replaceHeader g i) = storedRegs x i := by
  cases i with
  | wsr h p => cases p <;> rfl
  | wmr h p => cases p <;> rfl
  | _ => rfl

/-- Of the header the checks read the declared length alone (R117). -/
theorem wellSized_replaceHeader {g : Header} {i : Instr} (hm : g.mlen = i.header.mlen) :
    (replaceHeader g i).wellSized = i.wellSized := by
  cases i with
  | rhr h p => cases p <;> simp [replaceHeader, Instr.wellSized, hm, Instr.header]
  | wsr h p => cases p <;> simp [replaceHeader, Instr.wellSized, hm, Instr.header]
  | wmr h p => cases p <;> simp [replaceHeader, Instr.wellSized, hm, Instr.header]
  | illegal h fc rest => rfl

theorem supported_replaceHeader (g : Header) (i : Instr) :
    (replaceHeader g i).supported = i.supported := by
  cases i <;> rfl

theorem access_replaceHeader (g : Header) (i : Instr) :
    (replaceHeader g i).access = i.access := by
  cases i with
  | rhr h p => cases p <;> rfl
  | wsr h p => cases p <;> rfl
  | wmr h p => cases p <;> rfl
  | illegal h fc rest => rfl

theorem execException_replaceHeader {g : Header} {i : Instr} (n : Nat)
    (hm : g.mlen = i.header.mlen) : execException n (replaceHeader g i) = execException n i := by
  simp only [execException, supported_replaceHeader, wellSized_replaceHeader hm,
    access_replaceHeader]

theorem execRegs_replaceHeader {g : Header} {i : Instr} (n : Nat) (x : List Word)
    (hm : g.mlen = i.header.mlen) : execRegs n x (replaceHeader g i) = execRegs n x i := by
  simp only [execRegs, execException_replaceHeader n hm, storedRegs_replaceHeader]

/-- A request and its copy under another header with the same declared length are answered with the same
response but for the ids in its header (R165). -/
theorem execFrame_replaceHeader {g : Header} {i : Instr} (n : Nat) (x : List Word)
    (hm : g.mlen = i.header.mlen) : ∃ len pdu,
    execFrame n x i = responseHeader i.header.tid i.header.uid len ++ pdu ∧
    execFrame n x (replaceHeader g i) = responseHeader g.tid g.uid len ++ pdu := by
  simp only [execFrame, execException_replaceHeader n hm, functionCode_replaceHeader,
    header_replaceHeader]
  cases he : execException n i with
  | some e =>
    simp only [← encodeException_eq]
    exact ⟨_, _, rfl, rfl⟩
  | none =>
    rcases wellSized_cases (wellSized_of_no_exception he) with
      ⟨h, a, c, rfl, _⟩ | ⟨h, a, v, rfl, _⟩ | ⟨h, a, c, k, d, rfl, _⟩
    · exact ⟨_, _, List.append_assoc .., List.append_assoc ..⟩
    · simp only [normalFrame, replaceHeader, encodeWriteSingleResponse, List.append_assoc]
      exact ⟨_, _, rfl, rfl⟩
    · simp only [normalFrame, replaceHeader, encodeWriteMultipleResponse, List.append_assoc]
      exact ⟨_, _, rfl, rfl⟩

theorem bytes16_injective {v w : Word} (h : bytes16 v = bytes16 w) : v = w := by
  simp only [bytes16, List.cons.injEq, and_true] at h
  rw [← be16_bytes16 v, ← be16_bytes16 w, h.1, h.2]

/-- The ids of a request stand at bytes 0, 1 and 6 of its frame (R81). -/
theorem ids_of_decode {b : List Byte} {i : Instr} (hd : decode b = .instr i) :
    b.take 2 = bytes16 i.header.tid ∧ b[6]? = some i.header.uid := by
  obtain ⟨h, fc, rest, rfl, rfl⟩ := (decode_eq_instr_iff b i).mp hd
  rw [decodeFunction_header]
  exact ⟨rfl, rfl⟩

/-- Two frames that agree on all bytes but the ids hold the same request under two headers. -/
theorem eq_replaceHeader_of_decode {b₁ b₂ : List Byte} {i j : Instr} (hd₁ : decode b₁ = .instr i)
    (hd₂ : decode b₂ = .instr j) (hmid : (b₁.drop 2).take 4 = (b₂.drop 2).take 4)
    (htail : b₁.drop 7 = b₂.drop 7) :
    j = replaceHeader j.header i ∧ j.header.mlen = i.header.mlen := by
  obtain ⟨h, fc, rest, rfl, rfl⟩ := (decode_eq_instr_iff b₁ i).mp hd₁
  obtain ⟨g, fc', rest', rfl, rfl⟩ := (decode_eq_instr_iff b₂ j).mp hd₂
  have hmlen : bytes16 protocolId ++ bytes16 h.mlen = bytes16 protocolId ++ bytes16 g.mlen := hmid
  have hbytes : fc :: rest = fc' :: rest' := htail
  cases hbytes
  rw [decodeFunction_header, decodeFunction_header]
  exact ⟨decodeFunction_replaceHeader g h fc rest,
    (bytes16_injective (List.append_cancel_left hmlen)).symm⟩

/-- Settles O36: the second request is the first under another header with the same declared length. -/
theorem idsAreOnlyEchoed : Obligations.IdsAreOnlyEchoed := by
  intro b₁ b₂ i j s t u hd₁ hd₂ hmid htail ht hu
  obtain ⟨hj, hm⟩ := eq_replaceHeader_of_decode hd₁ hd₂ hmid htail
  obtain ⟨htid₁, huid₁⟩ := ids_of_decode hd₁
  obtain ⟨htid₂, huid₂⟩ := ids_of_decode hd₂
  obtain ⟨hregs, htx⟩ := exec_regs_tx ht
  obtain ⟨hregs', htx'⟩ := exec_regs_tx hu
  obtain ⟨len, pdu, hf, hf'⟩ := execFrame_replaceHeader s.params.n s.regs hm
  refine ⟨?_, fun f₁ f₂ h₁ h₂ => ?_⟩
  · rw [hregs, hregs', hj, execRegs_replaceHeader _ _ hm]
  · rw [hf] at htx
    rw [hj, hf'] at htx'
    cases h₁.symm.trans htx
    cases h₂.symm.trans htx'
    rw [htid₁, huid₁, htid₂, huid₂]
    exact ⟨rfl, rfl, rfl, rfl, rfl, rfl⟩

end Sys2Proof.Machine
end

section
/-! The procedure of R110 over byte indices (serviceSpec), row by row, against the decoded request
(R110, R182). -/

namespace Sys2Proof.Machine

/-! ## Bytes and fields of a frame by index (R8, R81) -/

@[simp] theorem fieldAt_encode_protocolId (i : Instr) : fieldAt (encode i) 2 = 0 := by
  obtain ⟨operands, he, _⟩ := exists_encode_eq i
  rw [he]
  exact be16_bytes16 protocolId

@[simp] theorem fieldAt_encode_mlen (i : Instr) : fieldAt (encode i) 4 = i.header.mlen := by
  obtain ⟨operands, he, _⟩ := exists_encode_eq i
  rw [he]
  exact be16_bytes16 i.header.mlen

@[simp] theorem byteAt_encode_functionCode (i : Instr) : byteAt (encode i) 7 = i.functionCode := by
  obtain ⟨operands, he, _⟩ := exists_encode_eq i
  rw [he]
  rfl

/-- The ids a response repeats (R165). -/
@[simp] theorem byteAt_encode_ids (i : Instr) :
    byteAt (encode i) 0 = i.header.tid.extractLsb' 8 8 ∧
    byteAt (encode i) 1 = i.header.tid.extractLsb' 0 8 ∧ byteAt (encode i) 6 = i.header.uid := by
  obtain ⟨operands, he, _⟩ := exists_encode_eq i
  rw [he]
  exact ⟨rfl, rfl, rfl⟩

/-! ## The procedure row by row -/

/-- Bytes that fit the buffer are judged without regard to its size (R111). -/
theorem serviceSpec_of_fit {n rxMax : Nat} {x : List Word} {b : List Byte}
    (h : b.length ≤ rxMax) : serviceSpec n rxMax x b = serviceSpec n b.length x b := by
  simp only [serviceSpec, Nat.not_lt.mpr h, Nat.lt_irrefl, if_false]

/-- The procedure, run on a request that fits the buffer, gives what the request leaves in the registers
and hands to send. -/
def ProcedureRuns (n : Nat) (x : List Word) (i : Instr) : Prop :=
  serviceSpec n (encode i).length x (encode i) = (execRegs n x i, some (execFrame n x i))

section Rows

variable {n : Nat} {x : List Word} {h : Header}

theorem procedureRuns_of_exception {i : Instr} {e : ModbusException}
    (he : execException n i = some e)
    (hs : serviceSpec n (encode i).length x (encode i) =
      (x, some (exceptionBytes i.header i.functionCode (exceptionCode e)))) :
    ProcedureRuns n x i := by
  simp only [ProcedureRuns, hs, execRegs, execFrame, he]

theorem procedureRuns_of_executed {i : Instr} (he : execException n i = none)
    (hs : serviceSpec n (encode i).length x (encode i) =
      (storedRegs x i, some (normalFrame x i))) :
    ProcedureRuns n x i := by
  simp only [ProcedureRuns, hs, execRegs, execFrame, he]

/-- A well-sized request out of range fails the bound check (R182). -/
theorem execException_of_outOfRange {i : Instr} {a len : Nat} (hw : i.wellSized = true)
    (ha : i.access = some (a, len)) (hr : n < a + len) :
    execException n i = some .illegalDataAddress := by
  rw [execException_access (supported_of_wellSized hw) hw ha, if_pos hr]

/-- R160: an unsupported function code, before any length is looked at. -/
theorem procedureRuns_illegal {fc : Byte} {rest : List Byte}
    (hw : (Instr.illegal h fc rest).wellFormed = true) :
    ProcedureRuns n x (.illegal h fc rest) := by
  have hfc : fc ≠ 3#8 ∧ fc ≠ 6#8 ∧ fc ≠ 16#8 := by
    simpa [Instr.wellFormed, and_assoc] using hw
  refine procedureRuns_of_exception (execException_of_unsupported n rfl) ?_
  simp [serviceSpec, Instr.size, Instr.functionCode, Instr.header, exceptionBytes, exceptionCode,
    hfc]

/-! ### Reads (R130) -/

theorem procedureRuns_rhr_badSize {rest : List Byte} (hlen : rest.length ≠ 4) :
    ProcedureRuns n x (.rhr h (.badSize rest)) := by
  have h12 : ¬ 8 + rest.length = 12 := by omega
  refine procedureRuns_of_exception (execException_of_not_wellSized n rfl rfl) ?_
  simp [serviceSpec, Instr.size, ReadPdu.size, Instr.functionCode, Instr.header, exceptionBytes,
    exceptionCode, h12]

theorem fieldAt_encode_rhr (a c : Word) :
    fieldAt (encode (.rhr h (.fields a c))) 8 = a ∧ fieldAt (encode (.rhr h (.fields a c))) 10 = c :=
  ⟨be16_bytes16 a, be16_bytes16 c⟩

theorem readSlice_eq_map {a c : Nat} (hr : a + c ≤ x.length) :
    readSlice x a c = (List.range c).map fun i => x[a + i]?.getD 0 := by
  apply List.ext_getElem?
  intro i
  rw [readSlice_getElem?, List.getElem?_map]
  by_cases hi : i < c
  · have hx : a + i < x.length := by omega
    simp [hi, hx]
  · simp [hi]

/-- The read response written out, with the register bytes by index (R87). -/
theorem encodeReadResponse_readSlice (tid : Word) (uid : Byte) {a c : Nat} (hr : a + c ≤ x.length)
    (hc : c ≤ 125) :
    encodeReadResponse tid uid (readSlice x a c) =
      [tid.extractLsb' 8 8, tid.extractLsb' 0 8, 0, 0, 0, BitVec.ofNat 8 (3 + 2 * c), uid, 0x03,
          BitVec.ofNat 8 (2 * c)]
        ++ (List.range c).flatMap fun i =>
          [(x[a + i]?.getD 0).extractLsb' 8 8, (x[a + i]?.getD 0).extractLsb' 0 8] := by
  have hlen : 1 + (2 + 2 * c) = 3 + 2 * c := by omega
  rw [encodeReadResponse, readSlice_length x a c hr, responseHeader_eq _ _ _ (by omega), hlen,
    readSlice_eq_map hr, List.flatMap_map]
  rfl

theorem procedureRuns_rhr_fields (hx : x.length = n) (hn : n ≤ 125) (a c : Word) :
    ProcedureRuns n x (.rhr h (.fields a c)) := by
  by_cases hm : h.mlen.toNat = 6
  · have hw : (Instr.rhr h (.fields a c)).wellSized = true := by simpa [Instr.wellSized] using hm
    by_cases hr : n < a.toNat + c.toNat
    · refine procedureRuns_of_exception (execException_of_outOfRange hw rfl hr) ?_
      simp [serviceSpec, Instr.size, ReadPdu.size, Instr.functionCode, Instr.header,
        exceptionBytes, exceptionCode, fieldAt_encode_rhr, hm, hr]
    · refine procedureRuns_of_executed (execException_eq_none hw rfl (by omega)) ?_
      have hc : c.toNat ≤ 125 := by omega
      have hfit : a.toNat + c.toNat ≤ x.length := by omega
      simp only [storedRegs, normalFrame, encodeReadResponse_readSlice _ _ hfit hc]
      simp [serviceSpec, Instr.size, ReadPdu.size, Instr.functionCode, Instr.header,
        fieldAt_encode_rhr, hm, hr]
  · have hw : (Instr.rhr h (.fields a c)).wellSized = false := by simpa [Instr.wellSized] using hm
    refine procedureRuns_of_exception (execException_of_not_wellSized n rfl hw) ?_
    simp [serviceSpec, Instr.size, ReadPdu.size, Instr.functionCode, Instr.header,
      exceptionBytes, exceptionCode, hm]

/-! ### Single writes (R140) -/

theorem procedureRuns_wsr_badSize {rest : List Byte} (hlen : rest.length ≠ 4) :
    ProcedureRuns n x (.wsr h (.badSize rest)) := by
  have h12 : ¬ 8 + rest.length = 12 := by omega
  refine procedureRuns_of_exception (execException_of_not_wellSized n rfl rfl) ?_
  simp [serviceSpec, Instr.size, WriteSinglePdu.size, Instr.functionCode, Instr.header,
    exceptionBytes, exceptionCode, h12]

theorem fieldAt_encode_wsr (a v : Word) :
    fieldAt (encode (.wsr h (.fields a v))) 8 = a ∧ fieldAt (encode (.wsr h (.fields a v))) 10 = v :=
  ⟨be16_bytes16 a, be16_bytes16 v⟩

/-- The response to a well-sized single write is the request byte for byte (R88). -/
theorem encodeWriteSingleResponse_eq_encode (hm : h.mlen.toNat = 6) (a v : Word) :
    encodeWriteSingleResponse h.tid h.uid a v = encode (.wsr h (.fields a v)) := by
  have hm' : h.mlen = BitVec.ofNat 16 (1 + 5) := BitVec.eq_of_toNat_eq hm
  rw [encode, encodeHeader, hm']
  rfl

theorem procedureRuns_wsr_fields (a v : Word) : ProcedureRuns n x (.wsr h (.fields a v)) := by
  by_cases hm : h.mlen.toNat = 6
  · have hw : (Instr.wsr h (.fields a v)).wellSized = true := by simpa [Instr.wellSized] using hm
    by_cases hr : n ≤ a.toNat
    · refine procedureRuns_of_exception (execException_of_outOfRange hw rfl (by omega)) ?_
      simp [serviceSpec, Instr.size, WriteSinglePdu.size, Instr.functionCode, Instr.header,
        exceptionBytes, exceptionCode, fieldAt_encode_wsr, hm, hr]
    · refine procedureRuns_of_executed (execException_eq_none hw rfl (by omega)) ?_
      rw [storedRegs, normalFrame, encodeWriteSingleResponse_eq_encode hm]
      simp [serviceSpec, Instr.size, WriteSinglePdu.size, Instr.functionCode, Instr.header,
        fieldAt_encode_wsr, hm, hr]
  · have hw : (Instr.wsr h (.fields a v)).wellSized = false := by simpa [Instr.wellSized] using hm
    refine procedureRuns_of_exception (execException_of_not_wellSized n rfl hw) ?_
    simp [serviceSpec, Instr.size, WriteSinglePdu.size, Instr.functionCode, Instr.header,
      exceptionBytes, exceptionCode, hm]

/-! ### Multiple writes (R141) -/

theorem procedureRuns_wmr_short {rest : List Byte} (hlen : rest.length < 5) :
    ProcedureRuns n x (.wmr h (.short rest)) := by
  have h13 : 8 + rest.length < 13 := by omega
  refine procedureRuns_of_exception (execException_of_not_wellSized n rfl rfl) ?_
  simp [serviceSpec, Instr.size, WriteMultiplePdu.size, Instr.functionCode, Instr.header,
    exceptionBytes, exceptionCode, h13]

theorem fieldAt_encode_wmr (a c : Word) (k : Byte) (data : List Byte) :
    fieldAt (encode (.wmr h (.fields a c k data))) 8 = a ∧
    fieldAt (encode (.wmr h (.fields a c k data))) 10 = c ∧
    byteAt (encode (.wmr h (.fields a c k data))) 12 = k ∧
    ∀ i, fieldAt (encode (.wmr h (.fields a c k data))) (13 + i) = fieldAt data i := by
  refine ⟨be16_bytes16 a, be16_bytes16 c, rfl, fun i => ?_⟩
  rw [Nat.add_comm 13 i]
  rfl

/-- The response repeats the address and the count as they stand in the request (R89). -/
theorem encodeWriteMultipleResponse_eq (a c : Word) (k : Byte) (data : List Byte) :
    encodeWriteMultipleResponse h.tid h.uid a c =
      [h.tid.extractLsb' 8 8, h.tid.extractLsb' 0 8, 0, 0, 0, 6, h.uid, 0x10,
        byteAt (encode (.wmr h (.fields a c k data))) 8,
        byteAt (encode (.wmr h (.fields a c k data))) 9,
        byteAt (encode (.wmr h (.fields a c k data))) 10,
        byteAt (encode (.wmr h (.fields a c k data))) 11] := by
  rw [encodeWriteMultipleResponse, responseHeader_eq _ _ _ (by omega)]
  rfl

theorem dataWords_getElem?_eq_fieldAt (data : List Byte) {j : Nat} (hj : 2 * j + 1 < data.length) :
    (dataWords data)[j]? = some (fieldAt data (2 * j)) := by
  have hbyte : ∀ i, i < data.length → data[i]? = some (byteAt data i) := by
    intro i hi
    simp [byteAt, hi]
  exact dataWords_getElem? data j _ _ (hbyte _ (by omega)) (hbyte _ hj)

/-- The written register file by index, with the values taken from the data bytes (R141). -/
theorem writeSlice_dataWords_eq_map {a c : Nat} {data : List Byte} (hr : a + c ≤ x.length)
    (hd : data.length = 2 * c) :
    writeSlice x a (dataWords data) = (List.range x.length).map fun i =>
      if a ≤ i ∧ i < a + c then fieldAt data (2 * (i - a)) else x[i]?.getD 0 := by
  have hlen : (dataWords data).length = c := by rw [dataWords_length]; omega
  apply List.ext_getElem?
  intro i
  rw [writeSlice_getElem? x a _ i (by rwa [hlen]), hlen, List.getElem?_map]
  rcases Nat.lt_or_ge i x.length with hi | hi
  · rw [List.getElem?_range hi]
    by_cases hin : a ≤ i ∧ i < a + c
    · simp [hin, dataWords_getElem?_eq_fieldAt data (j := i - a) (by omega)]
    · simp [hin, hi]
  · have hout : ¬ (a ≤ i ∧ i < a + c) := by omega
    simp [hout, hi]

theorem procedureRuns_wmr_fields (hx : x.length = n) (a c : Word) (k : Byte) (data : List Byte) :
    ProcedureRuns n x (.wmr h (.fields a c k data)) := by
  by_cases hsize : h.mlen.toNat = 7 + data.length ∧ k.toNat = 2 * c.toNat ∧ data.length = k.toNat
  · obtain ⟨hm, hk, hd⟩ := hsize
    have hw : (Instr.wmr h (.fields a c k data)).wellSized = true := by
      simp [Instr.wellSized, hm, hk, hd]
    have hL : (Instr.wmr h (.fields a c k data)).size = 13 + 2 * c.toNat := by
      simp only [Instr.size, WriteMultiplePdu.size]
      omega
    have hm' : h.mlen.toNat = 13 + 2 * c.toNat - 6 := by omega
    have h8 : ¬ 13 + 2 * c.toNat < 8 := by omega
    by_cases hr : n < a.toNat + c.toNat
    · refine procedureRuns_of_exception (execException_of_outOfRange hw rfl hr) ?_
      simp [serviceSpec, hL, Instr.functionCode, Instr.header, exceptionBytes, exceptionCode,
        fieldAt_encode_wmr, hm', h8, hk, hr]
    · refine procedureRuns_of_executed (execException_eq_none hw rfl (by omega)) ?_
      simp only [storedRegs, normalFrame, encodeWriteMultipleResponse_eq a c k data]
      rw [writeSlice_dataWords_eq_map (by omega) (hd.trans hk)]
      simp [serviceSpec, hL, Instr.functionCode, Instr.header, fieldAt_encode_wmr, hm', h8, hk, hr, hx]
  · have hw : (Instr.wmr h (.fields a c k data)).wellSized = false := by
      simpa [Instr.wellSized, and_assoc] using hsize
    refine procedureRuns_of_exception (execException_of_not_wellSized n rfl hw) ?_
    simp [serviceSpec, Instr.size, WriteMultiplePdu.size, Instr.functionCode, Instr.header,
      exceptionBytes, exceptionCode, fieldAt_encode_wmr]
    exact fun hm _ hk hd => absurd ⟨by omega, hk, by omega⟩ hsize

/-- Every request, whatever its form, meets the checks of R182 in the procedure's order. -/
theorem procedureRuns {i : Instr} (hi : i.wellFormed = true) (hx : x.length = n) (hn : n ≤ 125) :
    ProcedureRuns n x i := by
  cases i with
  | rhr h p =>
    cases p with
    | fields a c => exact procedureRuns_rhr_fields hx hn a c
    | badSize rest =>
      exact procedureRuns_rhr_badSize (by simpa [Instr.wellFormed, ReadPdu.wellFormed] using hi)
  | wsr h p =>
    cases p with
    | fields a v => exact procedureRuns_wsr_fields a v
    | badSize rest =>
      exact procedureRuns_wsr_badSize
        (by simpa [Instr.wellFormed, WriteSinglePdu.wellFormed] using hi)
  | wmr h p =>
    cases p with
    | fields a c k data => exact procedureRuns_wmr_fields hx a c k data
    | short rest =>
      exact procedureRuns_wmr_short
        (by simpa [Instr.wellFormed, WriteMultiplePdu.wellFormed] using hi)
  | illegal h fc rest => exact procedureRuns_illegal hi

end Rows

/-! ## The procedure and the service cycle (R110) -/

theorem serviceSpec_of_oversize (n : Nat) (x : List Word) {rxMax : Nat} {b : List Byte}
    (h : rxMax < b.length) :
    serviceSpec n rxMax x b = (x, none) := by
  simp only [serviceSpec, h, if_true]

/-- What the decoder rejects, the procedure drops (R112, R113, R115). -/
theorem serviceSpec_of_rejected (n : Nat) (x : List Word) {rxMax : Nat} {b : List Byte} {r : Reject}
    (hd : decode b = .rejected r) : serviceSpec n rxMax x b = (x, none) := by
  rcases Nat.lt_or_ge b.length 8 with hlt | hge
  · simp [serviceSpec, hlt]
  · obtain ⟨t0, t1, p0, p1, l0, l1, u, fc, rest, rfl⟩ := exists_eight b hge
    rw [decode_frame] at hd
    split at hd
    next => cases hd
    next hpid =>
      have hfield : fieldAt (t0 :: t1 :: p0 :: p1 :: l0 :: l1 :: u :: fc :: rest) 2 ≠ 0 := hpid
      simp only [serviceSpec, hfield, ne_eq, not_false_eq_true, if_true, ite_self]

theorem cycleOutcome_eq_serviceSpec {p : Params} {x : List Word} (hn : p.n ≤ 125)
    (hx : x.length = p.n) (b : List Byte) :
    cycleOutcome p.n x (receivedBytes p b) = serviceSpec p.n p.rxMax x b := by
  rcases Nat.lt_or_ge p.rxMax b.length with hlong | hfit
  · rw [receivedBytes_of_lt hlong, serviceSpec_of_oversize _ _ hlong]
    rfl
  rw [receivedBytes_of_le hfit]
  cases hd : decode b with
  | rejected r => rw [cycleOutcome_of_rejected hd, serviceSpec_of_rejected _ _ hd]
  | instr i =>
    obtain ⟨rfl, hwf, _⟩ := encodeInvertsDecode b i hd
    rw [cycleOutcome_of_instr hd, serviceSpec_of_fit hfit]
    exact (procedureRuns hwf hx hn).symm

/-- Settles O39: a cycle's outcome is the procedure's, for every byte sequence. -/
theorem serviceCycleFollowsTheProcedure : Obligations.ServiceCycleFollowsTheProcedure := by
  intro s pending ok rest hok hs hscript
  obtain ⟨_, hn, _⟩ := (params_ok_iff _).mp hok
  obtain ⟨t, ht, hout, _, hsend, _⟩ := step_service hok hscript
  exact ⟨t, ht, hout.trans (cycleOutcome_eq_serviceSpec hn hs pending), hsend⟩

end Sys2Proof.Machine
end

section
/-! The statements of 41_read_holding_registers.md: the values a read answers with (R130, R87) and
the address fault of a slice request (R130, R141, R184). -/

namespace Sys2Proof.Machine

/-! ## The two ways a well-sized request goes (R182) -/

/-- A request that passes every check is executed: the frame and the registers of R130, R140 and
R141, the events of the send, and nothing else. -/
theorem exec_of_no_exception {i : Instr} {s : State} (he : execException s.params.n i = none) :
    exec i s = .next { s with
      regs := storedRegs s.regs i
      tx := some (normalFrame s.regs i)
      diag := s.diag ++ sendDiag s.sendOk } := by
  rw [exec_eq, respond_eq]
  simp only [execFrame, execNote, execRegs, he]

/-- `IllegalDataAddress` is the exception with a fixed event, so the whole next state is known
(R184 (d)). -/
theorem raise_illegalDataAddress (h : Header) (fc : Byte) (s : State) :
    raise .illegalDataAddress h fc s = { s with
      tx := some (exceptionBytes h fc 2)
      diag := s.diag ++ [.malformedRequest] ++ sendDiag s.sendOk } := by
  rw [raise, respond_eq, encodeException_eq]
  rfl

/-- A well-sized request that names a register outside the file is answered with code 2, and only
the ports change (R130, R141, R180). -/
theorem exec_addressFault {i : Instr} {s : State} {a len : Nat} (hw : i.wellSized = true)
    (ha : i.access = some (a, len)) (hr : s.params.n < a + len) :
    exec i s = .next { s with
      tx := some (exceptionBytes i.header i.functionCode 2)
      diag := s.diag ++ [.malformedRequest] ++ sendDiag s.sendOk } := by
  rw [exec_of_exception (execException_of_outOfRange hw ha hr), raise_illegalDataAddress]

/-- Settles O28: the bound check fails for both requests before either touches a register. -/
theorem addressFaultsAnswerIllegalDataAddress :
    Obligations.AddressFaultsAnswerIllegalDataAddress := by
  intro s h a n hr
  refine ⟨fun hm => exec_addressFault ?_ rfl hr,
    fun k data hm hk hd => exec_addressFault ?_ rfl hr⟩
  · simp [Instr.wellSized, hm]
  · simp [Instr.wellSized, hm, hk, hd]

/-! ## The bytes of a read response (R87, R166) -/

/-- The 9-byte head of `RSP_RD`; up to 126 values its length field has a zero high byte. -/
theorem encodeReadResponse_take (tid : Word) (uid : Byte) {r : List Word} (hr : r.length ≤ 126) :
    (encodeReadResponse tid uid r).take 9 =
      [tid.extractLsb' 8 8, tid.extractLsb' 0 8, 0, 0, 0, BitVec.ofNat 8 (3 + 2 * r.length), uid,
        0x03, BitVec.ofNat 8 (2 * r.length)] := by
  have hlen : 1 + (2 + 2 * r.length) = 3 + 2 * r.length := by omega
  rw [encodeReadResponse, responseHeader_eq _ _ _ (by omega), hlen]
  rfl

/-- Value `i` of a list stands at bytes `2 * i` and `2 * i + 1`, the high byte first (R8, R83). -/
theorem flatMap_bytes16_getElem? {vs : List Word} {i : Nat} {v : Word} (h : vs[i]? = some v) :
    (vs.flatMap bytes16)[2 * i]? = some (v.extractLsb' 8 8) ∧
    (vs.flatMap bytes16)[2 * i + 1]? = some (v.extractLsb' 0 8) := by
  induction vs generalizing i with
  | nil => cases h
  | cons w vs ih =>
    cases i with
    | zero => cases h; exact ⟨rfl, rfl⟩
    | succ i => exact ih h

/-- Value `i` of a read response stands in the two bytes from `9 + 2 * i` on. -/
theorem encodeReadResponse_getElem? (tid : Word) (uid : Byte) {r : List Word} {i : Nat} {v : Word}
    (h : r[i]? = some v) :
    (encodeReadResponse tid uid r)[9 + 2 * i]? = some (v.extractLsb' 8 8) ∧
    (encodeReadResponse tid uid r)[10 + 2 * i]? = some (v.extractLsb' 0 8) := by
  have hlow : 10 + 2 * i = 9 + (2 * i + 1) := by omega
  rw [hlow, ← List.getElem?_drop, ← List.getElem?_drop, encodeReadResponse_drop]
  exact flatMap_bytes16_getElem? h

/-- Settles O22: the read passes every check, and its frame is the encoding of the slice. -/
theorem rhrAnswersTheRegisterValues : Obligations.RhrAnswersTheRegisterValues := by
  intro s h a n hok hs hm hr
  obtain ⟨_, hn, _⟩ := (params_ok_iff _).mp hok
  have he : execException s.params.n (.rhr h (.fields a n)) = none :=
    execException_eq_none (by simp [Instr.wellSized, hm]) rfl hr
  have hlen : (readSlice s.regs a.toNat n.toNat).length = n.toNat :=
    readSlice_length _ _ _ (by rwa [hs])
  refine ⟨_, exec_of_no_exception he, ?_, ?_, fun i v hi hv => ?_⟩
  · rw [normalFrame, encodeReadResponse_length, hlen]
  · rw [normalFrame, encodeReadResponse_take _ _ (by omega), hlen]
  · exact encodeReadResponse_getElem? _ _ (by rw [readSlice_getElem?, if_pos hi, hv])

end Sys2Proof.Machine
end

section
/-! The statements of 42_write_registers.md: what the two stores write and answer (R140, R141), and
that a store of one register does not depend on which of the two it is. -/

namespace Sys2Proof.Machine

/-! ## What a store leaves in the registers (R57, R140, R141) -/

/-- A size fault changes no register and is answered with code 3 (R117, R184). -/
theorem exec_sizeFault_regs {i : Instr} (s : State) (hs : i.supported = true)
    (hw : i.wellSized = false) :
    ∃ t, exec i s = .next t ∧ t.regs = s.regs ∧
      t.tx = some (exceptionBytes i.header i.functionCode 3) :=
  ⟨_, exec_of_exception (execException_of_not_wellSized _ hs hw), raise_regs .., raise_tx_eq ..⟩

/-- The bound check alone decides whether a well-sized request stores (R54, R57). -/
theorem execRegs_of_wellSized {n : Nat} (x : List Word) {i : Instr} {a len : Nat}
    (hw : i.wellSized = true) (ha : i.access = some (a, len)) :
    execRegs n x i = if n < a + len then x else storedRegs x i := by
  rw [execRegs, execException_access (supported_of_wellSized hw) hw ha]
  split_ifs <;> rfl

/-! ## Single writes (R140) -/

/-- R140, R117: a single write of another size than `REQ_WS`, or with a length field that disagrees,
is not well sized. -/
theorem wellSized_wsr_eq_false {h : Header} {p : WriteSinglePdu}
    (hp : p.size ≠ 4 ∨ h.mlen.toNat ≠ 2 + p.size) : (Instr.wsr h p).wellSized = false := by
  rw [Bool.eq_false_iff]
  intro hw
  obtain ⟨hm, ⟨h12, _⟩ | ⟨_, hfc⟩⟩ := size_of_wellSized hw
  · simp only [Instr.header, Instr.size] at hm h12
    omega
  · cases hfc

/-- Settles O23: the write passes every check, or fails the bound check, or fails a size check. -/
theorem wsrStoresOneRegister : Obligations.WsrStoresOneRegister := by
  intro s h
  have hw : ∀ a v : Word, h.mlen = 6 → (Instr.wsr h (.fields a v)).wellSized = true :=
    fun a v hm => by simp [Instr.wellSized, hm]
  refine ⟨fun a v hm hr => ?_, fun a v hm hr => ?_, fun p hp => ?_, rfl⟩
  · rw [exec_of_no_exception (execException_eq_none (hw a v hm) rfl hr), storedRegs, normalFrame,
      encodeWriteSingleResponse_eq_encode (congrArg BitVec.toNat hm)]
  · exact exec_addressFault (hw a v hm) rfl (Nat.lt_succ_of_le hr)
  · exact exec_sizeFault_regs s rfl (wellSized_wsr_eq_false hp)

/-! ## Multiple writes (R141) -/

/-- Settles O24: the write passes every check, and the written file is read element by element. -/
theorem wmrStoresTheSliceAtOnce : Obligations.WmrStoresTheSliceAtOnce := by
  intro s h a n k data hs hm hk hd hr
  have hw : (Instr.wmr h (.fields a n k data)).wellSized = true := by
    simp [Instr.wellSized, hm, hk, hd]
  have hlen : (dataWords data).length = n.toNat := by rw [dataWords_length]; omega
  have hfit : a.toNat + (dataWords data).length ≤ s.regs.length := by rwa [hlen, hs]
  refine ⟨writeSlice s.regs a.toNat (dataWords data), ?_, writeSlice_length .., ?_, ?_⟩
  · rw [exec_of_no_exception (execException_eq_none hw rfl hr), storedRegs, normalFrame,
      encodeWriteMultipleResponse_eq a n k data]
    rfl
  · intro i hi lo hlt hhi hlo
    rw [writeSlice_getElem? _ _ _ _ hfit, if_pos (by omega), Nat.add_sub_cancel_left]
    exact dataWords_getElem? data i hi lo hhi hlo
  · intro j hj
    exact writeSlice_getElem?_outside hfit (by rwa [hlen])

/-- Settles O29: no byte is twice a count of 128 or more, so the byte count disagrees. -/
theorem countsAbove127AreMalformed : Obligations.CountsAbove127AreMalformed := by
  intro s h a n k data hn
  refine exec_sizeFault_regs (i := .wmr h (.fields a n k data)) s rfl ?_
  have hk : k.toNat ≠ 2 * n.toNat := by
    have := k.isLt
    omega
  simp [Instr.wellSized, hk]

/-! ## One register, by either store (R141 (d)) -/

/-- One register stored by a multiple write is that register stored by a single write. -/
theorem storedRegs_wmr_single (x : List Word) (g h : Header) (a c : Word) (k hi lo : Byte) :
    storedRegs x (.wmr g (.fields a c k [hi, lo])) = storedRegs x (.wsr h (.fields a (be16 hi lo))) :=
  writeSlice_single x a.toNat (be16 hi lo)

/-- Settles O35: both requests are well sized and name the same register, so they meet the same bound
check. -/
theorem oneRegisterWmrWritesLikeWsr : Obligations.OneRegisterWmrWritesLikeWsr := by
  intro s g h a hi lo t u hg hh ht hu
  have hwmr : (Instr.wmr g (.fields a 1 2 [hi, lo])).wellSized = true := by
    simp [Instr.wellSized, hg]
  have hwsr : (Instr.wsr h (.fields a (be16 hi lo))).wellSized = true := by
    simp [Instr.wellSized, hh]
  have hbound : (Instr.wmr g (.fields a 1 2 [hi, lo])).access = some (a.toNat, 1) := rfl
  rw [(exec_regs_tx ht).1, (exec_regs_tx hu).1, execRegs_of_wellSized _ hwmr hbound,
    execRegs_of_wellSized _ hwsr rfl, storedRegs_wmr_single s.regs g h]

end Sys2Proof.Machine
end

section
/-! The statement of 43_illegal_function.md: every unsupported function code is answered (R160). -/

namespace Sys2Proof.Machine

/-- A function code the block does not have is answered with code 1 before any size is looked at, and
everything but the ports stays (R160, R182, R184). -/
theorem exec_unsupported {i : Instr} (s : State) (hu : i.supported = false) :
    ∃ t, exec i s = .next t ∧ t.tx = some (exceptionBytes i.header i.functionCode 1) ∧
      t = { s with tx := t.tx, diag := t.diag, diagDraws := t.diagDraws } :=
  ⟨_, exec_of_exception (execException_of_unsupported _ hu), raise_tx_eq .., raise_frame ..⟩

/-- Settles O25: `ILLEGAL` is the unsupported request, and `RSP_EXC` with code 1 is its answer (R90). -/
theorem illegalFunctionIsAnswered : Obligations.IllegalFunctionIsAnswered := by
  intro s h fc rest
  obtain ⟨t, hexec, htx, hframe⟩ := exec_unsupported (i := .illegal h fc rest) s rfl
  exact ⟨t, hexec, hframe, htx⟩

end Sys2Proof.Machine
end

section
/-! The statement of 44_response_encoder.md: what taking an exception sends and which events it emits
(R170, R184). -/

namespace Sys2Proof.Machine

/-! ## The events of an exception (R184 (d), 92 D17) -/

/-- An event left open adds no event that the spec names (92 D17, log 4). -/
theorem count_diag_emitOpen {d : DiagEvent} {o : OpenOutcome} (hd : d ≠ .unspecified o)
    (s : State) : (emitOpen o s).diag.count d = s.diag.count d := by
  unfold emitOpen
  dsimp only
  split
  · rw [List.count_append, List.count_singleton, if_neg (by simpa using hd.symm), Nat.add_zero]
  · rfl

/-- The event of an exception comes before the event of the send (R184 (d), (e)). -/
theorem raise_diag (e : ModbusException) (h : Header) (fc : Byte) (s : State) :
    (raise e h fc s).diag = (exceptionDiag e s).diag ++ sendDiag s.sendOk := by
  rw [raise, respond_eq, exceptionDiag_sendOk]

theorem count_malformedRequest_exceptionDiag (e : ModbusException) (s : State) :
    (exceptionDiag e s).diag.count .malformedRequest = s.diag.count .malformedRequest +
      (if e = .illegalDataAddress then 1 else 0) := by
  cases e with
  | illegalDataAddress => exact List.count_append
  | illegalFunction => exact count_diag_emitOpen (by decide) s
  | illegalDataValue => exact count_diag_emitOpen (by decide) s

theorem count_sendFailed_exceptionDiag (e : ModbusException) (s : State) :
    (exceptionDiag e s).diag.count .sendFailed = s.diag.count .sendFailed := by
  cases e with
  | illegalDataAddress => exact List.count_append
  | illegalFunction => exact count_diag_emitOpen (by decide) s
  | illegalDataValue => exact count_diag_emitOpen (by decide) s

theorem count_malformedRequest_sendDiag (ok : Bool) :
    (sendDiag ok).count .malformedRequest = 0 := by
  cases ok <;> rfl

theorem count_sendFailed_sendDiag (ok : Bool) :
    (sendDiag ok).count .sendFailed = if ok then 0 else 1 := by
  cases ok <;> rfl

/-! ## The frame of an exception (R170) -/

/-- The code of an exception is the last byte of its frame. -/
theorem encodeException_getLast? (tid : Word) (uid fc : Byte) (e : ModbusException) :
    (encodeException tid uid fc e).getLast? = some (exceptionCode e) :=
  List.getLast?_append

/-- Settles O26: `raise` notes the exception's event and hands the encoded frame to the send, so its
events are those of the two, counted apart. -/
theorem takingAnException : Obligations.TakingAnException := by
  intro e h fc s
  refine ⟨raise_tx .., ?_, raise_frame .., ?_, ?_⟩
  · rw [encodeException_getLast?]
    cases e <;> rfl
  · rw [raise_diag, List.count_append, count_malformedRequest_exceptionDiag,
      count_malformedRequest_sendDiag, Nat.add_zero]
    cases e <;> rfl
  · rw [raise_diag, List.count_append, count_sendFailed_exceptionDiag, count_sendFailed_sendDiag]

end Sys2Proof.Machine
end

section
/-! The statements of 60_exceptions.md about requests: `IllegalDataValue` is never about a value (R181),
and a request that failed leaves no trace (R186). -/

namespace Sys2Proof.Machine

/-! ## Which answers are exceptions (R90, R170) -/

theorem exceptionCode_injective {e e' : ModbusException} (h : exceptionCode e = exceptionCode e') :
    e = e' := by
  revert h
  cases e <;> cases e' <;> decide

/-- An executed request is answered under its own function code (R87 to R89). -/
theorem normalFrame_getElem?_functionCode (x : List Word) {i : Instr} (hw : i.wellSized = true) :
    (normalFrame x i)[7]? = some i.functionCode := by
  rcases wellSized_cases hw with
    ⟨h, a, n, rfl, _⟩ | ⟨h, a, v, rfl, _⟩ | ⟨h, a, n, k, d, rfl, _⟩ <;> rfl

/-- The supported function codes have their high bit clear (R91). -/
theorem functionCode_lt_of_supported {i : Instr} (h : i.supported = true) :
    i.functionCode.toNat < 0x80 := by
  rcases functionCode_of_supported h with e | e | e <;> rw [e] <;> decide

/-- An exception response is told from a normal one by the high bit of its function code (R90). -/
theorem normalFrame_ne_exceptionBytes (x : List Word) {i : Instr} (hw : i.wellSized = true)
    (h : Header) (fc code : Byte) : normalFrame x i ≠ exceptionBytes h fc code := by
  intro heq
  have hfc : some i.functionCode = some (fc ||| 0x80) := by
    rw [← normalFrame_getElem?_functionCode x hw, heq]
    rfl
  have hlt := functionCode_lt_of_supported (supported_of_wellSized hw)
  have hle : 0x80 ≤ (fc ||| 0x80).toNat := by
    rw [BitVec.toNat_or]
    exact Nat.right_le_or
  rw [Option.some.inj hfc] at hlt
  omega

/-- A request is answered with the frame of an exception exactly when it takes that exception. -/
theorem execFrame_eq_exceptionBytes_iff (n : Nat) (x : List Word) (i : Instr) (e : ModbusException) :
    execFrame n x i = exceptionBytes i.header i.functionCode (exceptionCode e) ↔
      execException n i = some e := by
  cases he : execException n i with
  | some e' =>
    simp only [execFrame, he]
    refine ⟨fun h => ?_, fun h => by rw [Option.some.inj h]⟩
    simp only [exceptionBytes, List.cons.injEq, true_and, and_true] at h
    rw [exceptionCode_injective h]
  | none =>
    simp only [execFrame, he]
    have hw := wellSized_of_no_exception he
    exact iff_of_false (normalFrame_ne_exceptionBytes x hw _ _ _) (by simp)

/-! ## Values are never refused (R181) -/

theorem execException_ne_illegalDataValue (n : Nat) {i : Instr} (hw : i.wellSized = true) :
    execException n i ≠ some .illegalDataValue := by
  rw [execException, supported_of_wellSized hw, hw]
  cases i.access with
  | none => simp
  | some slice => simp

/-- The answer to a single write is an exception for one value if it is for another. -/
theorem execFrame_wsr_exception_iff (n : Nat) (x : List Word) (h : Header) (a v w : Word)
    (e : ModbusException) :
    execFrame n x (.wsr h (.fields a v)) = exceptionBytes h 0x06 (exceptionCode e) ↔
      execFrame n x (.wsr h (.fields a w)) = exceptionBytes h 0x06 (exceptionCode e) :=
  (execFrame_eq_exceptionBytes_iff n x (.wsr h (.fields a v)) e).trans
    (execFrame_eq_exceptionBytes_iff n x (.wsr h (.fields a w)) e).symm

/-- Of its data the answer to a multiple write depends on their number alone. -/
theorem execFrame_wmr_congr (n : Nat) (x : List Word) (h : Header) (a c : Word) (k : Byte)
    {d e : List Byte} (hlen : d.length = e.length) :
    execFrame n x (.wmr h (.fields a c k d)) = execFrame n x (.wmr h (.fields a c k e)) := by
  have hsize : (Instr.wmr h (.fields a c k d)).wellSized =
      (Instr.wmr h (.fields a c k e)).wellSized := by
    simp only [Instr.wellSized, hlen]
  have hexc : execException n (.wmr h (.fields a c k d)) =
      execException n (.wmr h (.fields a c k e)) := by
    rw [execException, execException, hsize]
    rfl
  rw [execFrame, execFrame, hexc]
  rfl

/-- Settles O30: which exception a request takes is decided by its sizes and its address alone. -/
theorem noValueIsRefused : Obligations.NoValueIsRefused := by
  intro s
  refine ⟨fun i t hw ht => ?_, fun h a v w t u ht hu => ?_, fun h a n k d e t u hlen ht hu => ?_⟩
  · rw [(exec_regs_tx ht).2, ne_eq, Option.some.injEq]
    exact fun hf => execException_ne_illegalDataValue s.params.n hw
      ((execFrame_eq_exceptionBytes_iff _ s.regs i .illegalDataValue).mp hf)
  · rw [(exec_regs_tx ht).2, (exec_regs_tx hu).2]
    simp only [Option.some.injEq]
    exact ⟨execFrame_wsr_exception_iff _ _ h a v w .illegalDataValue,
      execFrame_wsr_exception_iff _ _ h a v w .illegalDataAddress⟩
  · rw [(exec_regs_tx ht).2, (exec_regs_tx hu).2, execFrame_wmr_congr _ _ h a n k hlen]

/-! ## Failed requests (R186) -/

/-- A request whose answer has the high bit set stored nothing (R184 (a)). -/
theorem execRegs_of_highBit {n : Nat} {x : List Word} {i : Instr}
    (h : ∀ fc, (execFrame n x i)[7]? = some fc → 0x80 ≤ fc.toNat) : execRegs n x i = x := by
  cases he : execException n i with
  | some e => rw [execRegs, he]
  | none =>
    have hw := wellSized_of_no_exception he
    have hframe : execFrame n x i = normalFrame x i := by rw [execFrame, he]
    have hhigh := h _ (by rw [hframe, normalFrame_getElem?_functionCode x hw])
    have hlow := functionCode_lt_of_supported (supported_of_wellSized hw)
    omega

/-- A cycle that drops its bytes or answers with an exception keeps the registers. -/
theorem cycleOutcome_regs_of_failed {n : Nat} {x : List Word} {b : List Byte}
    (h : ∀ f fc, (cycleOutcome n x b).2 = some f → f[7]? = some fc → 0x80 ≤ fc.toNat) :
    (cycleOutcome n x b).1 = x := by
  cases hd : decode b with
  | rejected r => rw [cycleOutcome_of_rejected hd]
  | instr i =>
    rw [cycleOutcome_of_instr hd] at h ⊢
    exact execRegs_of_highBit fun fc => h _ fc rfl

/-- Settles O42: the failed cycle keeps the registers, and a cycle depends on nothing else. -/
theorem failedRequestLeavesNoTrace : Obligations.FailedRequestLeavesNoTrace := by
  intro s t t' u p q ok ok' rest hscript ht hfailed ht' hu
  obtain ⟨t₀, ht₀, hout, _, _, hrest⟩ := step_service (ok_of_step_next ht) hscript
  cases ht.symm.trans ht₀
  obtain ⟨hregs, htx⟩ := Prod.ext_iff.mp hout
  have hkept : t.regs = s.regs :=
    hregs.trans (cycleOutcome_regs_of_failed fun f fc hf => hfailed f fc (htx.trans hf))
  have hparams := (stepsKeepTheParameters s t ht).1
  exact (noStateLeaksIntoResponses t { s with script := .service q ok' :: rest } t' u q ok' ok'
    rest rest hparams hkept hrest rfl ht' hu).symm

end Sys2Proof.Machine
end

section
/-! The statements of 60_exceptions.md about the documented agents: the counter (R191), the LED (R192),
the Connection Manager (R193) and the Tick Loop (R190). -/

namespace Sys2Proof.Machine

/-! ## The counter agent (R191) -/

/-- Before the first period has passed no increment is due. -/
theorem counterTick_of_early {now : Nat} {s : State} (h : now < s.agents.lastFire + 1000) :
    counterTick now s = s := by
  have hnone : firesDue s.params s.agents.lastFire now = 0 := if_neg (Nat.not_le.mpr h)
  simp only [counterTick, hnone, if_true]

/-- A tick with increments due adds their number to register 3 and moves `lastFire` on. -/
theorem counterTick_of_due {now k : Nat} {s : State} {v : Word} (hn : 4 ≤ s.params.n)
    (hv : s.regs[3]? = some v) (hdue : firesDue s.params s.agents.lastFire now = k) (hk : 0 < k) :
    counterTick now s = { s with
      regs := s.regs.set 3 (v + BitVec.ofNat 16 k)
      agents := { s.agents with lastFire := s.agents.lastFire + 1000 * k } } := by
  have hrange : counterOffset.toNat + 1 ≤ s.params.n := hn
  simp only [counterTick, hdue, Nat.ne_of_gt hk, if_false]
  rw [withReg_inRange _ hrange hv, counterFire, setReg_inRange hrange]
  rfl

theorem toNat_add_ofNat (v : Word) (k : Nat) :
    (v + BitVec.ofNat 16 k).toNat = (v.toNat + k) % 65536 := by
  rw [BitVec.toNat_add, BitVec.toNat_ofNat, Nat.add_mod_mod]

/-- Settles O46: without catching up one increment is due, or none. -/
theorem counterAgentAddsOneEverySecond : Obligations.CounterAgentAddsOneEverySecond := by
  intro s v now hn hcatch hv
  refine ⟨fun hdue => ?_, counterTick_of_early⟩
  have hone : firesDue s.params s.agents.lastFire now = 1 := by
    simp [firesDue, firePeriod, hdue, hcatch]
  exact ⟨_, toNat_add_ofNat v 1, counterTick_of_due hn hv hone Nat.one_pos⟩

/-- Settles O52: with catching up the whole periods that have passed are due. -/
theorem counterAgentCatchesUpEveryPeriod : Obligations.CounterAgentCatchesUpEveryPeriod := by
  intro s v now hn hcatch hv
  refine ⟨fun hdue => ?_, counterTick_of_early⟩
  have hk := firesDue_catchUp hcatch s.agents.lastFire now
  rw [firePeriod] at hk
  exact ⟨_, _, by omega, by omega, toNat_add_ofNat v _, counterTick_of_due hn hv hk (by omega)⟩

/-! ## The LED agent (R192) -/

/-- The agent drives its output and deadline to those given; register 2 follows the output when it
changes, or always under `LED_MIRROR_ALWAYS` (92 D22). -/
theorem ledApply_eq {next : Level × Nat} {s : State} (hn : 4 ≤ s.params.n) :
    ledApply next s = { s with
      regs := if next.1 = s.agents.ledOut ∧ s.params.ledMirrorAlways = false then s.regs
        else s.regs.set 2 (levelWord next.1)
      agents := { s.agents with ledOut := next.1, deadline := next.2 } } := by
  have hrange : ledStateOffset.toNat + 1 ≤ s.params.n := Nat.le_of_succ_le hn
  rw [ledApply, setReg_inRange hrange]
  split_ifs <;> rfl

/-- A tick applies what the mode and the interval ask for at this clock value. -/
theorem ledTick_eq {now : Nat} {s : State} {mode ms : Word} (hn : 4 ≤ s.params.n)
    (hmode : s.regs[0]? = some mode) (hms : s.regs[1]? = some ms) :
    ledTick now s = ledApply (ledNext s.params.blinkZeroAtOnce (ledModeOf mode) ms now
      s.agents.ledOut s.agents.deadline) s := by
  have hrange : ledModeOffset.toNat + 1 ≤ s.params.n := Nat.le_trans (by decide) hn
  have hrange' : blinkMsOffset.toNat + 1 ≤ s.params.n := Nat.le_trans (by decide) hn
  rw [ledTick, withReg_inRange _ hrange hmode, withReg_inRange _ hrange' hms]

/-- Every value that is no mode means Off (R24). -/
theorem ledModeOf_of_no_mode {v : Word} (h2 : v ≠ 2) (h3 : v ≠ 3) : ledModeOf v = .off := by
  rw [ledModeOf, if_neg h3, if_neg h2]

theorem ledNext_blink_of_due {atOnce : Bool} {ms : Word} {now deadline : Nat} (out : Level)
    (h : deadline ≤ now ∨ (ms = 0 ∧ atOnce = true)) :
    ledNext atOnce .blink ms now out deadline = (out.toggled, now + ms.toNat) :=
  if_pos ((blinkDue_iff ..).mpr (h.imp_right And.symm))

theorem ledNext_blink_of_early {atOnce : Bool} {ms : Word} {now deadline : Nat} (out : Level)
    (hearly : now < deadline) (hwait : ms ≠ 0 ∨ atOnce = false) :
    ledNext atOnce .blink ms now out deadline = (out, deadline) := by
  refine if_neg fun h => ?_
  rcases (blinkDue_iff ..).mp h with hle | ⟨hatOnce, hms⟩
  · omega
  · exact hwait.elim (fun hne => hne hms) fun hfalse => by cases hatOnce.symm.trans hfalse

theorem toggled_ne (l : Level) : l.toggled ≠ l := by cases l <;> decide

theorem levelWord_eq (l : Level) : levelWord l = if l = .high then 1 else 0 := by cases l <;> rfl

/-- Settles O47: the tick applies `ledNext`, whose cases are the modes. -/
theorem ledAgentFollowsTheModeRegister : Obligations.LedAgentFollowsTheModeRegister := by
  rintro s t mode ms now hn hmode hms rfl
  rw [ledTick_eq hn hmode hms, ledApply_eq hn]
  refine ⟨fun h2 h3 => ?_, ?_, ?_, ?_, fun hwrite => ?_, fun hout hmirror => ?_, rfl⟩
  · rw [ledModeOf_of_no_mode h2 h3]
    exact ⟨rfl, rfl⟩
  · rintro rfl
    exact ⟨rfl, rfl⟩
  · rintro rfl hdue
    have hnext := ledNext_blink_of_due s.agents.ledOut hdue
    exact ⟨fun h => toggled_ne _ ((congrArg Prod.fst hnext).symm.trans h), congrArg Prod.snd hnext⟩
  · rintro rfl hearly hwait
    have hnext := ledNext_blink_of_early s.agents.ledOut hearly hwait
    exact ⟨congrArg Prod.fst hnext, congrArg Prod.snd hnext⟩
  · dsimp only at hwrite ⊢
    rw [if_neg, levelWord_eq]
    rintro ⟨hsame, hmirror⟩
    rcases hwrite with h | h
    · exact h hsame
    · cases hmirror.symm.trans h
  · exact if_pos ⟨hout, hmirror⟩

/-! ## What the agents leave alone -/

@[simp] theorem counterTick_tx (now : Nat) (s : State) : (counterTick now s).tx = s.tx := by
  rcases counterTick_cases now s with e | ⟨_, _, _, _, e, _⟩ <;> rw [e]

@[simp] theorem counterTick_diag (now : Nat) (s : State) : (counterTick now s).diag = s.diag := by
  rcases counterTick_cases now s with e | ⟨_, _, _, _, e, _⟩ <;> rw [e]

@[simp] theorem ledTick_tx (now : Nat) (s : State) : (ledTick now s).tx = s.tx := by
  rcases ledTick_cases now s with e | ⟨_, _, _, e, _⟩ <;> rw [e]

@[simp] theorem ledTick_diag (now : Nat) (s : State) : (ledTick now s).diag = s.diag := by
  rcases ledTick_cases now s with e | ⟨_, _, _, e, _⟩ <;> rw [e]

/-- The counter agent leaves the Connection Manager alone. -/
theorem counterTick_client (now : Nat) (s : State) :
    (counterTick now s).agents.conn = s.agents.conn ∧
      (counterTick now s).agents.peerGone = s.agents.peerGone := by
  rcases counterTick_cases now s with e | ⟨_, _, _, _, e, _⟩ <;> rw [e] <;> exact ⟨rfl, rfl⟩

/-- The LED agent leaves the Connection Manager alone. -/
theorem ledTick_client (now : Nat) (s : State) :
    (ledTick now s).agents.conn = s.agents.conn ∧
      (ledTick now s).agents.peerGone = s.agents.peerGone := by
  rcases ledTick_cases now s with e | ⟨_, _, _, e, _⟩ <;> rw [e] <;> exact ⟨rfl, rfl⟩

/-! ## The Connection Manager (R193) -/

theorem live_eq_false_iff (g : Agents) :
    g.live = false ↔ g.conn ≠ .connected ∨ g.peerGone = true := by
  rw [Bool.eq_false_iff, ne_eq, live_iff, not_and_or, Bool.not_eq_false]

theorem serveBuffer_agents {s t : State} (h : serveBuffer s = .next t) : t.agents = s.agents := by
  rcases serveBuffer_cases s with ⟨r, _, e⟩ | ⟨i, _, e⟩ <;> rw [e] at h
  · cases h
    exact dropFrame_agents s r
  · obtain ⟨_, _, _, _, hagents, _⟩ := exec_keeps h
    exact hagents

/-- A cycle with a live client leaves the manager as it is. -/
theorem sessionCycle_agents_of_live {pending : List Byte} {ok : Bool} {s t : State}
    (hlive : s.agents.live = true) (h : sessionCycle pending ok s = .next t) :
    t.agents = s.agents := by
  rw [sessionCycle, if_pos hlive] at h
  exact serveBuffer_agents (s := receive pending ok s) h

/-- A tick without a live client sends nothing and ends in Disconnected. -/
theorem tickLoop_of_not_live {s : State} (pending : List Byte) (ok : Bool) (now : Nat)
    (h : s.agents.live = false) (htx : s.tx = none) :
    ∃ t, tickLoop pending ok now s = .next t ∧ t.tx = none ∧ t.agents.conn = .disconnected ∧
      t.agents.peerGone = false := by
  simp only [tickLoop, sessionCycle_of_not_live pending ok h]
  exact ⟨_, rfl, by simpa using htx, by simp [ledTick_client, counterTick_client]⟩

/-- Settles O50: each move runs from the opened ports, and the live bit decides. -/
theorem acceptKeepsALiveClient : Obligations.AcceptKeepsALiveClient := by
  intro s rest hok
  have hlive : s.agents.conn = .connected → s.agents.peerGone = false → s.agents.live = true :=
    fun hc hp => (live_iff _).mpr ⟨hc, hp⟩
  have hdead := (live_eq_false_iff s.agents).mpr
  refine ⟨fun success hs => ⟨fun hc hp => ?_, fun hgone => ?_⟩, fun hs hc hp => ?_,
    fun pending ok hs => ⟨fun hgone => ?_, fun hc hp => ?_⟩, fun pending ok now hs hgone => ?_⟩ <;>
    rw [step_of_cons hok hs]
  · rw [runMove, acceptIfNeeded_eq]
    exact congrArg _ (if_pos (hlive hc hp))
  · rw [runMove, acceptIfNeeded_eq]
    exact congrArg _ (if_neg (by simpa using hdead hgone))
  · exact congrArg _ (if_pos (hlive hc hp))
  · exact sessionCycle_of_not_live (s := openPorts { s with script := rest }) pending ok (hdead hgone)
  · obtain ⟨t, ht, _⟩ := sessionCycle_advances pending ok (openPorts { s with script := rest })
    exact ⟨t, ht, sessionCycle_agents_of_live (s := openPorts { s with script := rest })
      (hlive hc hp) ht⟩
  · exact tickLoop_of_not_live (s := openPorts { s with script := rest }) pending ok now
      (hdead hgone) rfl

/-- With a client waiting, accept always ends with a live one. -/
theorem acceptIfNeeded_true_live (s : State) : (acceptIfNeeded true s).agents.live = true := by
  rw [acceptIfNeeded_eq]
  split
  · assumption
  · rfl

/-- The peer's closing touches no register. -/
theorem step_peerClose_regs {s t : State} {rest : List Move} (hscript : s.script = .peerClose :: rest)
    (h : step s = .next t) : t.regs = s.regs := by
  rw [step_of_cons (ok_of_step_next h) hscript] at h
  cases h
  exact peerClose_regs _

/-- An accept with a client waiting touches no register and ends with a live client. -/
theorem step_accept_true {s t : State} {rest : List Move} (hscript : s.script = .accept true :: rest)
    (h : step s = .next t) : t.regs = s.regs ∧ t.agents.live = true := by
  rw [step_of_cons (ok_of_step_next h) hscript] at h
  cases h
  exact ⟨acceptIfNeeded_regs _ _, acceptIfNeeded_true_live _⟩

/-- Settles O51: neither move touches the registers, and the new client's cycle is the block's own,
which depends on nothing but them. -/
theorem reconnectingKeepsTheRegisters : Obligations.ReconnectingKeepsTheRegisters := by
  intro s a b c d pending ok rest hscript ha hb hc hd
  obtain ⟨hparams, hscript'⟩ := stepsKeepTheParameters s a ha
  rw [hscript, List.tail_cons] at hscript'
  obtain ⟨hparams', hscript''⟩ := stepsKeepTheParameters a b hb
  rw [hscript', List.tail_cons] at hscript''
  obtain ⟨hregs', hlive⟩ := step_accept_true hscript' hb
  have hregs : b.regs = s.regs := hregs'.trans (step_peerClose_regs hscript ha)
  rw [step_session_of_live (ok_of_step_next hc) hscript'' hlive] at hc
  obtain ⟨htx, hcd⟩ := noStateLeaksIntoResponses { b with script := .service pending ok :: rest }
    { s with script := .service pending ok :: rest } c d pending ok ok rest rest
    (hparams'.trans hparams) hregs rfl rfl hc hd
  exact ⟨hregs, ((live_iff _).mp hlive).1, hcd, htx⟩

/-! ## The Tick Loop (R190)

The moves of a tick, run one by one, start from opened ports and another rest of the script; neither
makes a difference to what they do. -/

theorem execNote_setScript (i : Instr) (s : State) (rest : List Move) :
    execNote i { s with script := rest } = { execNote i s with script := rest } := by
  unfold execNote
  dsimp only
  split
  next e _ => cases e <;> rfl
  next => rfl

section SetScript

variable {s t : State} (rest : List Move)

theorem exec_setScript {i : Instr} (h : exec i s = .next t) :
    exec i { s with script := rest } = .next { t with script := rest } := by
  rw [exec_eq] at h ⊢
  cases h
  simp only [execNote_setScript, respond_eq]

theorem serveBuffer_setScript (h : serveBuffer s = .next t) :
    serveBuffer { s with script := rest } = .next { t with script := rest } := by
  rcases serveBuffer_cases s with ⟨r, hd, e⟩ | ⟨i, hd, e⟩ <;> rw [e] at h
  · cases h
    simp only [serveBuffer, hd]
    cases r <;> rfl
  · simp only [serveBuffer, hd]
    exact exec_setScript rest h

theorem sessionCycle_setScript {pending : List Byte} {ok : Bool}
    (h : sessionCycle pending ok s = .next t) :
    sessionCycle pending ok { s with script := rest } = .next { t with script := rest } := by
  cases hlive : s.agents.live
  · rw [sessionCycle_of_not_live pending ok hlive] at h
    cases h
    exact sessionCycle_of_not_live (s := { s with script := rest }) pending ok hlive
  · rw [sessionCycle, if_pos hlive] at h
    exact (if_pos hlive).trans (serveBuffer_setScript rest h)

end SetScript

/-- The state a step runs its move from: the ports opened, and the rest of the script in place. -/
abbrev opened (rest : List Move) (s : State) : State := openPorts { s with script := rest }

theorem setReg_opened (a v : Word) (s : State) (rest : List Move) :
    setReg a v (opened rest s) = opened rest (setReg a v s) := by
  rw [setReg, memWrite_openPorts, setReg]
  cases memWrite s a 1 [v] <;> rfl

theorem withReg_opened {a : Word} {s : State} {rest : List Move} {k k' : Word → State}
    (hk : ∀ v, k' v = opened rest (k v)) :
    withReg a (opened rest s) k' = opened rest (withReg a s k) := by
  have hread : memRead (opened rest s) a 1 = memRead s a 1 := rfl
  simp only [withReg, hread]
  split
  · exact hk _
  · rfl

theorem counterTick_opened (now : Nat) (s : State) (rest : List Move) :
    counterTick now (opened rest s) = opened rest (counterTick now s) := by
  by_cases hk : firesDue s.params s.agents.lastFire now = 0
  · simp only [counterTick, openPorts_params, openPorts_agents, hk, if_true]
  · simp only [counterTick, openPorts_params, openPorts_agents, hk, if_false]
    exact withReg_opened fun v => by rw [counterFire, setReg_opened]; rfl

theorem ledApply_opened (next : Level × Nat) (s : State) (rest : List Move) :
    ledApply next (opened rest s) = opened rest (ledApply next s) := by
  by_cases hsame : next.1 = s.agents.ledOut ∧ s.params.ledMirrorAlways = false
  · rw [ledApply, if_pos (by exact hsame), ledApply, if_pos hsame]
    rfl
  · rw [ledApply, if_neg (by exact hsame), setReg_opened, ledApply, if_neg hsame]
    rfl

theorem ledTick_opened (now : Nat) (s : State) (rest : List Move) :
    ledTick now (opened rest s) = opened rest (ledTick now s) :=
  withReg_opened fun _ => withReg_opened fun _ => ledApply_opened _ s rest

theorem step_counter {s : State} (now : Nat) (rest : List Move) (hok : s.params.ok = true) :
    step { s with script := .counter now :: rest } = .next (opened rest (counterTick now s)) := by
  rw [step_of_cons (s := { s with script := .counter now :: rest }) hok rfl]
  exact congrArg _ (counterTick_opened now s rest)

theorem step_led {s : State} (now : Nat) (rest : List Move) (hok : s.params.ok = true) :
    step (opened (.led now :: rest) s) = .next (opened rest (ledTick now s)) := by
  rw [step_of_cons (s := opened (.led now :: rest) s) hok rfl]
  exact congrArg _ (ledTick_opened now s rest)

/-- Settles O49: each of the three single steps does what its part of the tick does. -/
theorem tickRunsServiceCounterLed : Obligations.TickRunsServiceCounterLed := by
  intro s t pending ok now rest hscript hstep
  have hok := ok_of_step_next hstep
  rw [step_of_cons hok hscript] at hstep
  obtain ⟨u, hu, rfl⟩ := tickLoop_eq_next hstep
  have hsession : step { s with script := [.session pending ok, .counter now, .led now] ++ rest } =
      .next { u with script := [.counter now, .led now] ++ rest } := by
    rw [step_of_cons (s := { s with
      script := [.session pending ok, .counter now, .led now] ++ rest }) hok rfl]
    exact sessionCycle_setScript _ hu
  obtain ⟨hparams, hrest⟩ := runMove_keeps (m := .session pending ok) hu
  have hoku : u.params.ok = true := by rwa [hparams]
  refine ⟨_, _, _, hsession, step_counter now (.led now :: rest) hoku,
    step_led now rest (by rwa [counterTick_params]), rfl, rfl, ?_, ?_, ?_⟩
  · exact (ledTick_script ..).trans ((counterTick_script ..).trans hrest)
  · exact (ledTick_tx ..).trans (counterTick_tx ..)
  · exact (ledTick_diag ..).trans (counterTick_diag ..)

end Sys2Proof.Machine
end

section
/-! The statements of 70_reset_and_hazards.md: what a reset restores (R210), the first LED tick after it
(R211), and the repetition of a request (R215). -/

namespace Sys2Proof.Machine

/-! ## Reset (R210, R211) -/

/-- Settles O3: opening the ports leaves the parameters and the model's own fields, and reset reads
nothing else. -/
theorem resetMoveForgetsTheRunBefore : Obligations.ResetMoveForgetsTheRunBefore := by
  intro s rest hok hscript
  rw [step_of_cons hok hscript]
  rfl

/-- The reset deadline is 0, so Blink is due at every clock value (log 8). -/
theorem ledTick_reset (now : Nat) : ledTick now State.reset = { State.reset with
    regs := State.reset.regs.set 2 1
    agents := { State.reset.agents with ledOut := .high, deadline := now + 250 } } := by
  have hdue : ledNext State.reset.params.blinkZeroAtOnce (ledModeOf 3) 250 now
      State.reset.agents.ledOut State.reset.agents.deadline = (.high, now + 250) :=
    ledNext_blink_of_due .low (.inl (Nat.zero_le now))
  have hn : 4 ≤ State.reset.params.n := by decide
  rw [ledTick_eq (mode := 3) (ms := 250) hn rfl rfl, hdue, ledApply_eq hn]
  rfl

/-- Settles O48: the output, the registers and the deadline, read off the state after the tick. -/
theorem firstLedTickAfterResetTurnsTheLedOn :
    Obligations.FirstLedTickAfterResetTurnsTheLedOn := by
  intro now
  rw [ledTick_reset]
  exact ⟨rfl, rfl, rfl⟩

/-! ## Repeated requests (R215) -/

/-- Writing the same values to the same slice again changes nothing (R56). -/
theorem writeSlice_writeSlice_same (x : List Word) (a : Nat) (vs : List Word) :
    writeSlice (writeSlice x a vs) a vs = writeSlice x a vs := by
  induction x generalizing a vs with
  | nil => simp only [writeSlice]
  | cons w x ih =>
    cases vs with
    | nil => simp [writeSlice]
    | cons v vs =>
      cases a with
      | zero => simp only [writeSlice, ih]
      | succ a => simp [writeSlice, ih]

theorem storedRegs_storedRegs (x : List Word) (i : Instr) :
    storedRegs (storedRegs x i) i = storedRegs x i := by
  cases i with
  | rhr h p => rfl
  | wsr h p =>
    cases p with
    | fields a v => exact List.set_set v
    | badSize rest => rfl
  | wmr h p =>
    cases p with
    | fields a n k data => exact writeSlice_writeSlice_same x a.toNat (dataWords data)
    | short rest => rfl
  | illegal h fc rest => rfl

/-- A read stores nothing, and the response of a store is made of its operands alone (R166 to R168). -/
theorem normalFrame_storedRegs (x : List Word) (i : Instr) :
    normalFrame (storedRegs x i) i = normalFrame x i := by
  cases i with
  | rhr h p => rfl
  | wsr h p => cases p <;> rfl
  | wmr h p => cases p <;> rfl
  | illegal h fc rest => rfl

/-- Whether a request takes an exception does not depend on the registers, so its repetition stores what
the request stored. -/
theorem execRegs_execRegs (n : Nat) (x : List Word) (i : Instr) :
    execRegs n (execRegs n x i) i = execRegs n x i := by
  cases he : execException n i with
  | some e => simp only [execRegs, he]
  | none => simp only [execRegs, he, storedRegs_storedRegs]

theorem execFrame_execRegs (n : Nat) (x : List Word) (i : Instr) :
    execFrame n (execRegs n x i) i = execFrame n x i := by
  cases he : execException n i with
  | some e => simp only [execFrame, he]
  | none => simp only [execFrame, execRegs, he, normalFrame_storedRegs]

/-- Settles O34: the repetition runs under the same N, from the registers the request left. -/
theorem requestsAreIdempotent : Obligations.RequestsAreIdempotent := by
  intro i s t u _ ht hu
  have hparams : t.params = s.params := (exec_keeps ht).1
  obtain ⟨hregs, htx⟩ := exec_regs_tx ht
  obtain ⟨hregs', htx'⟩ := exec_regs_tx hu
  rw [hparams, hregs] at hregs' htx'
  exact ⟨by rw [hregs', execRegs_execRegs, hregs], by rw [htx', execFrame_execRegs, htx]⟩

end Sys2Proof.Machine
end

section
/-! The invariant of the machine at reset, stated over 10_state.md and 70_reset_and_hazards.md: where every
run starts (R36, R210, R211). -/

namespace Sys2Proof.Machine

/-- A reset move in the state right after reset changes nothing. -/
theorem resetMachine_resetWith (p : Params) :
    resetMachine (State.resetWith p) = State.resetWith p := rfl

/-- The state right after reset is what a reset move leaves, and a reset move establishes the
invariant. -/
theorem inv_resetWith {p : Params} (hok : p.ok = true) : (State.resetWith p).Inv := by
  rw [← resetMachine_resetWith]
  exact inv_resetMachine hok

/-- Settles O2: the reference parameters are one legal choice (R4). -/
theorem resetMeetsTheInvariant : Obligations.ResetMeetsTheInvariant :=
  ⟨inv_resetWith (p := Params.reference) (by decide), fun _ hok => inv_resetWith hok⟩

end Sys2Proof.Machine
end
